-- ==== Sys2Proof/Word.lean ====
section
/-! DEFINITION. The word types: bytes, instruction words, and register values (00_scope.md R8, R9). -/

namespace Sys2Proof

/-- The eight bits of one configuration field, or of one byte of memory. -/
abbrev Byte := BitVec 8

/-- An instruction word: every instruction of 30_encoding.md R95 is 32 bits long. -/
abbrev Insn := BitVec 32

/-- A value of `LEN` bits (10_state.md R23). It is held in 64 bits. While `LEN` is 32 its upper half is zero. -/
abbrev Word := BitVec 64

end Sys2Proof
end

