-- ==== Sys2Proof/Syntax.lean ====
section
/-! DEFINITION. The instructions, one constructor per row of spec/opcode_table.json (30_encoding.md R97). -/

namespace Sys2Proof

/-- The six CSR access instructions naming `pmpcfg0`. `rd` and `rs1` are register numbers and `uimm` is an unsigned
immediate (30_encoding.md R96); `Instr.wf` bounds them. -/
inductive Instr where
  /-- `csrrw rd, pmpcfg0, rs1` (40_csr_access.md R118). -/
  | csrrw (rd rs1 : Nat)
  /-- `csrrs rd, pmpcfg0, rs1` (40_csr_access.md R119). -/
  | csrrs (rd rs1 : Nat)
  /-- `csrrc rd, pmpcfg0, rs1` (40_csr_access.md R120). -/
  | csrrc (rd rs1 : Nat)
  /-- `csrrwi rd, pmpcfg0, uimm` (40_csr_access.md R121). -/
  | csrrwi (rd uimm : Nat)
  /-- `csrrsi rd, pmpcfg0, uimm` (40_csr_access.md R122). -/
  | csrrsi (rd uimm : Nat)
  /-- `csrrci rd, pmpcfg0, uimm` (40_csr_access.md R123). -/
  | csrrci (rd uimm : Nat)
deriving DecidableEq, Repr

end Sys2Proof
end

