-- ==== Sys2Proof/WellFormed.lean ====
section
/-! DEFINITION. Which terms are instructions: the operand ranges of 40_csr_access.md R118 to R123. -/

namespace Sys2Proof

/-- A register number or an immediate fits the five bits its place in the format has (30_encoding.md R95). -/
def fitsFiveBits (n : Nat) : Bool := n < 32

/-- Every operand is in its range. Every register combination is legal (30_encoding.md R98), so there is no further
check. -/
def Instr.wf : Instr → Bool
  | .csrrw rd rs1 => fitsFiveBits rd && fitsFiveBits rs1
  | .csrrs rd rs1 => fitsFiveBits rd && fitsFiveBits rs1
  | .csrrc rd rs1 => fitsFiveBits rd && fitsFiveBits rs1
  | .csrrwi rd uimm => fitsFiveBits rd && fitsFiveBits uimm
  | .csrrsi rd uimm => fitsFiveBits rd && fitsFiveBits uimm
  | .csrrci rd uimm => fitsFiveBits rd && fitsFiveBits uimm

end Sys2Proof
end

