-- ==== Sys2Proof/Decode.lean ====
section
/-! DEFINITION. From instruction words to instructions and back (30_encoding.md R95 to R98). -/

namespace Sys2Proof

/-- Why a word is no row of the opcode map (30_encoding.md R98). -/
inductive DecodeError where
  /-- The opcode bits 6:0 are not 1110011. -/
  | otherOpcode
  /-- The CSR address in bits 31:20 is not that of `pmpcfg0`. -/
  | otherCsr
  /-- `funct3` is 000 or 100. -/
  | otherFunct3
  /-- Fewer than four bytes. -/
  | truncated
deriving DecidableEq, Repr

/-- What the decoder answers. -/
inductive Decoded where
  | instr (i : Instr)
  | rejected (why : DecodeError)
deriving DecidableEq, Repr

/-- The CSR address of `pmpcfg0` (10_state.md R20, 30_encoding.md R90). -/
def csrPmpcfg0 : BitVec 12 := 0x3A0

/-- The opcode of the CSR access instructions (30_encoding.md R95). -/
def opcodeSystem : BitVec 7 := 0x73

/-- Bits 31:20. -/
def csrOf (w : Insn) : BitVec 12 := w.extractLsb' 20 12

/-- Bits 19:15: `rs1` or `uimm`. -/
def rs1Of (w : Insn) : BitVec 5 := w.extractLsb' 15 5

/-- Bits 14:12. -/
def funct3Of (w : Insn) : BitVec 3 := w.extractLsb' 12 3

/-- Bits 11:7. -/
def rdOf (w : Insn) : BitVec 5 := w.extractLsb' 7 5

/-- Bits 6:0. -/
def opcodeOf (w : Insn) : BitVec 7 := w.extractLsb' 0 7

/-- The row that `funct3` selects (30_encoding.md R97). -/
def decodeFunct3 (w : Insn) : Decoded :=
  match (funct3Of w).toNat with
  | 1 => .instr (.csrrw (rdOf w).toNat (rs1Of w).toNat)
  | 2 => .instr (.csrrs (rdOf w).toNat (rs1Of w).toNat)
  | 3 => .instr (.csrrc (rdOf w).toNat (rs1Of w).toNat)
  | 5 => .instr (.csrrwi (rdOf w).toNat (rs1Of w).toNat)
  | 6 => .instr (.csrrsi (rdOf w).toNat (rs1Of w).toNat)
  | 7 => .instr (.csrrci (rdOf w).toNat (rs1Of w).toNat)
  | _ => .rejected .otherFunct3

/-- Decoding an instruction word, total, rejecting by name what 30_encoding.md R98 puts outside the spec. -/
def decode (w : Insn) : Decoded :=
  if opcodeOf w ≠ opcodeSystem then .rejected .otherOpcode
  else if csrOf w ≠ csrPmpcfg0 then .rejected .otherCsr
  else decodeFunct3 w

/-- The instruction word of four fetched bytes, lowest address first: little-endian (PRESUMED, log 19). -/
def insnOfBytes (b0 b1 b2 b3 : Byte) : Insn := b3 ++ b2 ++ b1 ++ b0

/-- The bytes of an instruction word as they lie in memory, lowest address first: little-endian (PRESUMED, log 19). -/
def bytesOfInsn (w : Insn) : List Byte :=
  [w.extractLsb' 0 8, w.extractLsb' 8 8, w.extractLsb' 16 8, w.extractLsb' 24 8]

/-- Decoding the bytes found at an address. -/
def decodeBytes : List Byte → Decoded
  | b0 :: b1 :: b2 :: b3 :: _ => decode (insnOfBytes b0 b1 b2 b3)
  | _ => .rejected .truncated

/-- The format of 30_encoding.md R95 with its fields filled in. -/
def formatI (rs1 : Nat) (funct3 : BitVec 3) (rd : Nat) : Insn :=
  csrPmpcfg0 ++ BitVec.ofNat 5 rs1 ++ funct3 ++ BitVec.ofNat 5 rd ++ opcodeSystem

/-- The word of an instruction (30_encoding.md R97). -/
def encode : Instr → Insn
  | .csrrw rd rs1 => formatI rs1 1 rd
  | .csrrs rd rs1 => formatI rs1 2 rd
  | .csrrc rd rs1 => formatI rs1 3 rd
  | .csrrwi rd uimm => formatI uimm 5 rd
  | .csrrsi rd uimm => formatI uimm 6 rd
  | .csrrci rd uimm => formatI uimm 7 rd

/-- The 32-bit word whose low `nbits` bits are those of `w`, bit 0 the least significant bit, and whose other bits
are 0. -/
def tableInsn (nbits w : Nat) : Insn := BitVec.ofNat 32 (w % 2 ^ nbits)

/-- The instruction the decoder reads from a word of the opcode table. -/
def decodeTableWord (nbits w : Nat) : Option Instr :=
  match decodeBytes (bytesOfInsn (tableInsn nbits w)) with
  | .instr i => some i
  | .rejected _ => none

end Sys2Proof
end

