-- ==== Sys2Proof/Config.lean ====
section
/-! DEFINITION. The parameters of the hardware (00_scope.md R6, R7) and the types they are stated over. What an
implementation fixes and the spec leaves open is an opaque constant: nothing is known of its value. -/

namespace Sys2Proof

/-- Privilege modes: a parameter type with a distinguished value `M` (00_scope.md R7, 60_exceptions.md R159). The
source names no other mode, so the others are numbered and nothing is assumed of them (log 8). -/
inductive Priv where
  | m
  | other (id : Nat)
deriving DecidableEq, Repr

/-- An address of the checked address space. The spec takes the type as a parameter and does no arithmetic on it
(20_memory.md R60(b)): an address is known by a number only, and no order, distance or upper end of these numbers is
assumed (log 18). -/
structure Addr where
  id : Nat
deriving DecidableEq, Repr, Inhabited

/-- The three access classes of 20_memory.md R61. -/
inductive AccessClass where
  | fetch
  | load
  | storeAmo
deriving DecidableEq, Repr

/-- The four values of the sub-field A (10_state.md R40, 30_encoding.md R92). -/
inductive AddrMode where
  | off
  | tor
  | na4
  | napot
deriving DecidableEq, Repr

/-- The verdict of one entry on one access (20_memory.md R64). -/
inductive Verdict where
  | noMatch
  | noFault
  | fault
deriving DecidableEq, Repr

/-- What the verdicts of all entries combine to (20_memory.md R67). -/
inductive Combined where
  | noFault
  | fault
deriving DecidableEq, Repr, Inhabited

/-- The length of the register in the current format (10_state.md R23). -/
inductive Len where
  | w32
  | w64
deriving DecidableEq, Repr

/-- `NUM_PMP_ENTRIES` of the implementation (00_scope.md R6, 92 D7; log 2). -/
opaque Config.numPmpEntries : Nat

/-- `PMP_GRANULARITY` of the implementation, of unknown unit: only its comparison with 2 is used (00_scope.md R6,
90_conflicts.md C2; log 24). -/
opaque Config.pmpGranularity : Int

/-- The draw behind `RESET_CFG[N]` at `State.reset` (10_state.md R28, 92 D4; log 5). -/
opaque Config.resetCfg : Nat → Byte

/-- `PmpMatch(N, mode, addr, nbytes)`, of which nothing is assumed (20_memory.md R66, 92 D24; log 3). -/
opaque Config.pmpMatch : Nat → AddrMode → Addr → Nat → Bool

/-- `PmpCombine`, of which nothing is assumed: the mode of the access and the verdicts in entry order
(20_memory.md R67, 92 D23; log 4). -/
opaque Config.pmpCombine : Priv → List Verdict → Combined

/-- The address of byte `k` of an access at an address, of which nothing is assumed (20_memory.md R60(b); log 18). -/
opaque Config.byteAt : Addr → Nat → Addr

/-- The address at which the instruction at a pc is fetched, of which nothing is assumed (20_memory.md R60(b), 92 D11;
log 18). -/
opaque Config.fetchAddr : Nat → Addr

/-- FREE VALUE number `k`: the upper half that a general register holds after a write made in the 32-bit format
(log 17). -/
opaque Config.freeUpperHalf : Nat → BitVec 32

/-- An entry that matches every access lying wholly inside the bytes `first` to `last`, as 95_test_vectors.md
program P6 instantiates `PmpMatch`. -/
structure Region where
  entry : Nat
  first : Nat
  last : Nat
deriving DecidableEq, Repr

/-- Which relation `PmpMatch` is. It stands as data because a state holds no function (log 3). -/
inductive MatchParam where
  /-- The implementation's own relation, `Config.pmpMatch`. -/
  | config
  /-- The instantiation of program P6: the listed regions and nothing else. -/
  | regions (rs : List Region)
deriving DecidableEq, Repr

/-- Which function `PmpCombine` is. It stands as data because a state holds no function (log 4). -/
inductive CombineParam where
  /-- The implementation's own function, `Config.pmpCombine`. -/
  | config
  /-- The instantiation of program P6: the lowest-numbered entry that matches decides. -/
  | lowestNumbered
  /-- A constant function: admissible, since 20_memory.md R67 assumes nothing of `PmpCombine`. -/
  | always (r : Combined)
deriving DecidableEq, Repr

/-- Where the bytes of an access and of an instruction lie. It stands as data because a state holds no function (log
18). -/
inductive AddrParam where
  /-- The implementation's own, `Config.byteAt` and `Config.fetchAddr`. -/
  | config
  /-- An instantiation: byte `k` of an access lies `k` places after its address, and the pc is itself an address. -/
  | successive
deriving DecidableEq, Repr

/-- The static parameters of the model (00_scope.md R6, R7). No step changes them (log 2). -/
structure Params where
  numPmpEntries : Nat
  pmpGranularity : Int
  pmpMatch : MatchParam
  pmpCombine : CombineParam
  addresses : AddrParam
deriving DecidableEq, Repr

/-- The parameters of the implementation. -/
def Config.params : Params :=
  ⟨Config.numPmpEntries, Config.pmpGranularity, .config, .config, .config⟩

end Sys2Proof
end

