-- ==== Sys2Proof/Machine/Flags.lean ====
section
/-! DEFINITION. The bits of one configuration field: its sub-fields, the legal values, what a write stores and what a
reset leaves. The hardware has no arithmetic flags (10_state.md section 8); these are its only status bits. -/

namespace Sys2Proof.Machine

/-- The lock bit L, bit 7 of a field (10_state.md R37, R38). -/
def lockBit (v : Byte) : Bool := v.getLsbD 7

/-- The execute permission X, bit 2 of a field (10_state.md R37, R42). -/
def xBit (v : Byte) : Bool := v.getLsbD 2

/-- The write permission W, bit 1 of a field (10_state.md R37, R43). -/
def wBit (v : Byte) : Bool := v.getLsbD 1

/-- The read permission R, bit 0 of a field (10_state.md R37, R44). -/
def rBit (v : Byte) : Bool := v.getLsbD 0

/-- The reserved bits 6:5 of a field (10_state.md R37, R39). -/
def reservedBits (v : Byte) : BitVec 2 := v.extractLsb' 5 2

/-- The address-matching mode A, bits 4:3 of a field (10_state.md R37, R40). -/
def addrMode (v : Byte) : AddrMode :=
  match (v.extractLsb' 3 2).toNat with
  | 0 => .off
  | 1 => .tor
  | 2 => .na4
  | _ => .napot

/-- R = 0 with W = 1, the reserved combination of permissions (10_state.md R44). -/
def reservedPerms (v : Byte) : Bool := !rBit v && wBit v

/-- NA4 on hardware with `PMP_GRANULARITY >= 2` (10_state.md R41). -/
def invalidMode (g : Int) (v : Byte) : Bool := decide (2 ≤ g) && addrMode v == .na4

/-- `Legal(v)` (10_state.md R45). -/
def legal (g : Int) (v : Byte) : Bool :=
  !reservedPerms v && !invalidMode g v && reservedBits v == 0

/-- `WriteField(old, new)` (40_csr_access.md R113): the three tests in order, then an accepted value that keeps the
stored bits 6:5 (90_conflicts.md C1). -/
def writeField (g : Int) (old new : Byte) : Byte :=
  if lockBit old then old
  else if reservedPerms new then old
  else if invalidMode g new then old
  else (new &&& 0x9F) ||| (old &&& 0x60)

/-- What field `n` stores after a write: an unimplemented field is read-only (40_csr_access.md R111, R112), an
implemented one takes `writeField`. -/
def storeField (p : Params) (n : Nat) (old new : Byte) : Byte :=
  if p.numPmpEntries ≤ n then old else writeField p.pmpGranularity old new

/-- What a reset leaves in field `n` (10_state.md R28): 0 when unimplemented, else the drawn value. A draw that is not
legal stands for the draw 0, so the values reached are exactly the admissible ones (log 5). -/
def resetField (p : Params) (n : Nat) (draw : Byte) : Byte :=
  if p.numPmpEntries ≤ n then 0
  else if legal p.pmpGranularity draw then draw
  else 0

end Sys2Proof.Machine
end

