-- ==== Sys2Proof/Machine/Memory.lean ====
section
/-! DEFINITION. Memory of the enclosing processor: a list of (address, byte) pairs in rising order. The
numbers of the addresses serve to tell them apart and to keep the list in one form. A byte nothing has written has no
value (log 18). -/

namespace Sys2Proof.Machine

/-- The bytes something has written, by address. -/
abbrev Memory := List Host.Cell

/-- The canonical form: addresses strictly rising. An unlisted address reads as no value, so no entry can equal what
an unlisted address reads as. -/
abbrev Memory.wf (m : Memory) : Prop := m.Pairwise fun p q => p.1 < q.1

/-- The byte at an address, if something has written one. -/
def Memory.read : Memory → Addr → Option Byte
  | [], _ => none
  | (k, v) :: m, a => if a.id = k then some v else Memory.read m a

/-- Writing one byte. -/
def Memory.write : Memory → Addr → Byte → Memory
  | [], a, b => [(a.id, b)]
  | (k, v) :: m, a, b =>
    if a.id < k then (a.id, b) :: (k, v) :: m
    else if a.id = k then (a.id, b) :: m
    else (k, v) :: Memory.write m a b

/-- Writing bytes, each at its address, in the order of the list. -/
def Memory.writeAll : Memory → List (Addr × Byte) → Memory
  | m, [] => m
  | m, (a, b) :: cells => Memory.writeAll (m.write a b) cells

/-- Reading the bytes at some addresses: the bytes, or the first of the addresses that holds none. -/
def Memory.readAll (m : Memory) : List Addr → Except Addr (List Byte)
  | [] => .ok []
  | a :: as =>
    match m.read a with
    | none => .error a
    | some b =>
      match Memory.readAll m as with
      | .error e => .error e
      | .ok bs => .ok (b :: bs)

end Sys2Proof.Machine
end

