-- ==== Sys2Proof/Machine/State.lean ====
section
/-! DEFINITION. The state of the machine as plain data, the reasons a step can stop, and the state after reset. -/

namespace Sys2Proof.Machine

/-- The exceptions a step can end with (60_exceptions.md R150). -/
inductive Exception where
  /-- An access of this class failed the check of 20_memory.md R64 and R67. -/
  | accessFault (cls : AccessClass)
  /-- An instruction naming `pmpcfg0` ran outside M-mode (40_csr_access.md R116); the word is the instruction's. -/
  | illegalInstruction (insn : Insn)
deriving DecidableEq, Repr

/-- Why the machine stops with a fault. -/
inductive Fault where
  /-- Raised by `step` when an exception stands raised and the next move of the enclosing processor is not its trap
  entry: delivery belongs to that processor (60_exceptions.md R156). Safe. -/
  | undelivered (e : Exception)
  /-- Raised by an instruction fetch from an address that holds no byte (log 18). Safe. -/
  | unwrittenByte (a : Addr)
deriving DecidableEq, Repr

/-- Why the machine gives no meaning. -/
inductive Refusal where
  /-- Raised by an arm of `exec` whose instruction has no meaning yet; no arm does. Safe. -/
  | notModelled (mnemonic : String)
  /-- Raised by a CSR access in M-mode while MXL is neither 0 nor 1: the register then has no length (10_state.md
  R23, 92 D6). Safe. -/
  | mxlWithoutLength (mxl : Int)
  /-- Raised by an instruction fetch of a word outside the opcode map (30_encoding.md R98). Safe. -/
  | outsideOpcodeMap (why : DecodeError)
  /-- Raised by an access check that meets an entry storing R = 0 with W = 1, or NA4 where NA4 is not valid: a
  stored value the source gives no meaning (93 U3, U4; log 22). Safe. -/
  | reservedConfig (entry : Fin 8)
deriving DecidableEq, Repr

/-- A general register. Its width at the time of an access is `LEN` (92 D10): the lower half is the register in the
32-bit format, both halves are the register in the 64-bit format (log 16). -/
structure Reg where
  hi : BitVec 32
  lo : BitVec 32
deriving DecidableEq, Repr

/-- What a memory access of the enclosing processor does once it is permitted. -/
inductive AccessKind where
  | fetch (nbytes : Nat)
  | load (nbytes : Nat)
  | store (bytes : List Byte)
  | amo (bytes : List Byte)
deriving DecidableEq, Repr

/-- A memory access of the enclosing processor. It carries its own privilege mode: the source does not say that it is
always the executing one (91 N13). -/
structure Access where
  kind : AccessKind
  priv : Priv
  addr : Addr
deriving DecidableEq, Repr

/-- The values a reset brings which the spec leaves to the implementation and the enclosing processor (70 R172). -/
structure ResetDraw where
  cfg : Vector Byte 8
  x : Vector Reg 32
  pc : Nat
  priv : Priv
  mxl : Int
deriving DecidableEq, Repr

/-- A move of the enclosing processor (log 11). -/
inductive Move where
  /-- It fetches and runs the instruction at the pc. -/
  | instruction
  /-- It makes a memory access (20_memory.md R64). -/
  | access (a : Access)
  /-- It enters a trap handler at `target` in `mode` (60_exceptions.md R156). -/
  | trapEntry (target : Nat) (mode : Priv)
  /-- It returns from a trap to `target` in `mode` (60_exceptions.md R157). -/
  | trapReturn (target : Nat) (mode : Priv)
  /-- `CSR[misa].MXL` changes (10_state.md R23, R47). That nothing else changes with it is the model's choice (log
  34). -/
  | setMxl (mxl : Int)
  /-- It is reset (70_reset_and_hazards.md R170 to R172). -/
  | reset (d : ResetDraw)
deriving DecidableEq, Repr

structure State where
  /-- The stored fields pmp0cfg to pmp7cfg (10_state.md R21): the whole state of the hardware itself (R22). -/
  cfg : Vector Byte 8
  /-- The general registers x[0] to x[31] (92 D10). -/
  x : Vector Reg 32
  /-- The program counter (92 D11). -/
  pc : Nat
  /-- The privilege mode in which the current instruction executes (00_scope.md R9). -/
  priv : Priv
  /-- `MXL = CSR[misa].MXL` (10_state.md R23). -/
  mxl : Int
  /-- The memory of the enclosing processor (20_memory.md R60(b)). -/
  mem : Memory
  /-- The exception the last step ended with, until a trap entry takes it (00_scope.md R9; log 10). -/
  raised : Option Exception
  /-- The pending moves of the enclosing processor, oldest first (log 11). -/
  agenda : List Move
  /-- How many free values have been taken (log 17). -/
  draws : Nat
  /-- The static parameters (00_scope.md R6, R7). -/
  params : Params
deriving DecidableEq, Repr

def State.setCfg (s : State) (v : Vector Byte 8) : State := { s with cfg := v }

def State.setX (s : State) (v : Vector Reg 32) : State := { s with x := v }

def State.setPc (s : State) (v : Nat) : State := { s with pc := v }

def State.setPriv (s : State) (v : Priv) : State := { s with priv := v }

def State.setMxl (s : State) (v : Int) : State := { s with mxl := v }

def State.setMem (s : State) (v : Memory) : State := { s with mem := v }

def State.setRaised (s : State) (v : Option Exception) : State := { s with raised := v }

def State.setAgenda (s : State) (v : List Move) : State := { s with agenda := v }

def State.setDraws (s : State) (v : Nat) : State := { s with draws := v }

/-- The machine right after reset: the fields as 10_state.md R28 and R49 give them, MXL 0 (log 7), M-mode (PRESUMED,
log 8), pc 0 (log 15), every general register 0 (log 16), no byte of memory listed (log 18), no exception, no pending
move. -/
def State.reset : State where
  cfg := Vector.ofFn fun n : Fin 8 => resetField Config.params n (Config.resetCfg n)
  x := Vector.replicate 32 ⟨0, 0⟩
  pc := 0
  priv := .m
  mxl := 0
  mem := []
  raised := none
  agenda := []
  draws := 0
  params := Config.params

end Sys2Proof.Machine
end

