-- ==== Sys2Proof/Machine/Operands.lean ====
section
/-! DEFINITION. The operand forms of the six instructions: a general register, read or written at the current length,
and a zero-extended immediate (30_encoding.md R96, 40_csr_access.md section 2). -/

namespace Sys2Proof.Machine

/-- `x[r]` at length `len`. `x[0]` reads as 0 (92 D10). -/
def readReg (len : Len) (r : Nat) (s : State) : Word :=
  if r = 0 then 0
  else
    match s.x[r]?, len with
    | none, _ => 0
    | some v, .w32 => v.lo.setWidth 64
    | some v, .w64 => v.hi ++ v.lo

/-- `x[r] <- v` at length `len`. `x[0]` ignores writes (92 D10). A write in the 32-bit format leaves the upper half a
free value (log 17). -/
def writeReg (len : Len) (r : Nat) (v : Word) (s : State) : State :=
  if r = 0 then s
  else
    match len with
    | .w32 =>
      (s.setX (s.x.setIfInBounds r ⟨Config.freeUpperHalf s.draws, v.extractLsb' 0 32⟩)).setDraws (s.draws + 1)
    | .w64 => s.setX (s.x.setIfInBounds r ⟨v.extractLsb' 32 32, v.extractLsb' 0 32⟩)

/-- `zext_LEN(uimm)`: the 5-bit immediate, zero-extended (30_encoding.md R96). -/
def immediate (uimm : Nat) : Word := (BitVec.ofNat 5 uimm).setWidth 64

end Sys2Proof.Machine
end

