-- ==== Sys2Proof/Machine/Ops.lean ====
section
/-! DEFINITION. The named operations: READ and WRITE on the register (40_csr_access.md R110 to R117), raising an
exception (00_scope.md R9), the check of a memory access (20_memory.md R61 to R68) and the moves of the enclosing
processor. -/

namespace Sys2Proof.Machine

/-! ## The register -/

/-- `LEN` as a function of MXL, none where the source gives no length (10_state.md R23). -/
def lenOfMxl (mxl : Int) : Option Len :=
  if mxl = 0 then some .w32 else if mxl = 1 then some .w64 else none

/-- `NF`, the number of fields in the current format (10_state.md R23). -/
def fieldCount : Len → Nat
  | .w32 => 4
  | .w64 => 8

/-- `READ` (40_csr_access.md R110): the fields of the current format, field 0 least significant (10_state.md R26). -/
def readCsr (len : Len) (s : State) : Word :=
  match len with
  | .w32 => (s.cfg[3] ++ s.cfg[2] ++ s.cfg[1] ++ s.cfg[0]).setWidth 64
  | .w64 => s.cfg[7] ++ s.cfg[6] ++ s.cfg[5] ++ s.cfg[4] ++ s.cfg[3] ++ s.cfg[2] ++ s.cfg[1] ++ s.cfg[0]

/-- `csr_value.pmpNcfg`: byte `n` of the attempted value (30_encoding.md R91). -/
def fieldOf (v : Word) (n : Nat) : Byte := v.extractLsb' (8 * n) 8

/-- `WRITE(v)` (40_csr_access.md R111, R114): every field of the current format at once, each from its own stored value
and its own byte; the fields outside the format are unchanged (R117). -/
def writeCsr (len : Len) (v : Word) (s : State) : State :=
  s.setCfg (Vector.ofFn fun n : Fin 8 =>
    if n.val < fieldCount len then storeField s.params n s.cfg[n] (fieldOf v n) else s.cfg[n])

/-! ## Exceptions -/

/-- `raise E(info)` (00_scope.md R9): the step ends with the exception and no state of the spec changes. The exception
stands recorded for the enclosing processor (60_exceptions.md R155, R156; log 10). -/
def raiseException (e : Exception) (s : State) : Host.Outcome State Fault Refusal :=
  .next (s.setRaised (some e))

/-- Trap entry, the enclosing processor's (60_exceptions.md R156): the exception is taken, control goes to the handler
in its mode, and `cfg` is unchanged (log 13). -/
def enterTrap (target : Nat) (mode : Priv) (s : State) : State :=
  ((s.setRaised none).setPc target).setPriv mode

/-- Trap return, the enclosing processor's (60_exceptions.md R157): `cfg` is unchanged (log 13). -/
def returnFromTrap (target : Nat) (mode : Priv) (s : State) : State :=
  (s.setPc target).setPriv mode

/-- Nothing but a trap entry or a reset comes after an exception that stands raised. -/
def whenDelivered (s : State) (o : Host.Outcome State Fault Refusal) : Host.Outcome State Fault Refusal :=
  match s.raised with
  | none => o
  | some e => .fault (.undelivered e)

/-! ## The check of a memory access -/

/-- `PermBit(v, c)` (20_memory.md R61, R64). -/
def permBit (v : Byte) : AccessClass → Bool
  | .fetch => xBit v
  | .load => rBit v
  | .storeAmo => wBit v

/-- `Applies(N, priv)` for a stored field `v` (20_memory.md R63). -/
def appliesTo (v : Byte) : Priv → Bool
  | .m => lockBit v
  | .other _ => true

/-- An access of `nbytes` bytes at `addr` lies wholly inside the bytes of a region (95_test_vectors.md P6). -/
def insideRegion (r : Region) (addr : Addr) (nbytes : Nat) : Bool :=
  decide (r.first ≤ addr.id) && decide (addr.id + nbytes ≤ r.last + 1)

/-- `PmpMatch(N, mode, addr, nbytes)` (20_memory.md R66). -/
def pmpMatch (p : Params) (n : Nat) (mode : AddrMode) (addr : Addr) (nbytes : Nat) : Bool :=
  match p.pmpMatch with
  | .config => Config.pmpMatch n mode addr nbytes
  | .regions rs => rs.any fun r => r.entry == n && insideRegion r addr nbytes

/-- `EntryVerdict(N, c, priv, addr, nbytes)` for a stored field `v` (20_memory.md R62, R64). An unimplemented entry
matches nothing. -/
def entryVerdict (p : Params) (n : Nat) (v : Byte) (c : AccessClass) (priv : Priv) (addr : Addr) (nbytes : Nat) :
    Verdict :=
  if p.numPmpEntries ≤ n then .noMatch
  else if addrMode v = .off then .noMatch
  else if !pmpMatch p n (addrMode v) addr nbytes then .noMatch
  else if !appliesTo v priv then .noFault
  else if !permBit v c then .fault
  else .noFault

/-- The combination of program P6: the lowest-numbered entry whose verdict is not `NoMatch` decides; with no match an
M-mode access passes and any other faults. -/
def lowestNumbered (priv : Priv) : List Verdict → Combined
  | [] => if priv = .m then .noFault else .fault
  | .noMatch :: vs => lowestNumbered priv vs
  | .noFault :: _ => .noFault
  | .fault :: _ => .fault

/-- `PmpCombine` (20_memory.md R67). -/
def pmpCombine (p : Params) (priv : Priv) (vs : List Verdict) : Combined :=
  match p.pmpCombine with
  | .config => Config.pmpCombine priv vs
  | .lowestNumbered => lowestNumbered priv vs
  | .always r => r

/-- Entry `n` matches the access and stores a value the source gives no meaning: R = 0 with W = 1 (93 U3), or NA4 on
hardware where NA4 is not valid (93 U4); log 22. -/
def meaningless (p : Params) (n : Nat) (v : Byte) (addr : Addr) (nbytes : Nat) : Bool :=
  pmpMatch p n (addrMode v) addr nbytes && decide (n < p.numPmpEntries) && addrMode v != .off &&
    (reservedPerms v || invalidMode p.pmpGranularity v)

/-- What the check of a memory access answers. -/
inductive Check where
  | permitted
  | faults
  | noMeaning (entry : Fin 8)
deriving DecidableEq, Repr

/-- The verdicts of entries 0 to 7 in entry order (20_memory.md R67). -/
def verdicts (s : State) (c : AccessClass) (priv : Priv) (addr : Addr) (nbytes : Nat) : List Verdict :=
  (List.finRange 8).map fun n : Fin 8 => entryVerdict s.params n s.cfg[n] c priv addr nbytes

/-- The check of one access against the fields as stored now (20_memory.md R64, R67, R75). -/
def checkAccess (s : State) (c : AccessClass) (priv : Priv) (addr : Addr) (nbytes : Nat) : Check :=
  match (List.finRange 8).find? fun n : Fin 8 => meaningless s.params n s.cfg[n] addr nbytes with
  | some n => .noMeaning n
  | none =>
    match pmpCombine s.params priv (verdicts s c priv addr nbytes) with
    | .noFault => .permitted
    | .fault => .faults

/-! ## The bytes of an access -/

/-- The address of byte `k` of an access at `addr` (20_memory.md R60(b); log 18). -/
def byteAt (p : Params) (addr : Addr) (k : Nat) : Addr :=
  match p.addresses with
  | .config => Config.byteAt addr k
  | .successive => ⟨addr.id + k⟩

/-- The addresses of the first `n` bytes of an access at `addr`. -/
def bytesFrom (p : Params) (addr : Addr) (n : Nat) : List Addr := (List.range n).map (byteAt p addr)

/-- The address at which the instruction at `pc` is fetched (20_memory.md R60(b), 92 D11; log 18). -/
def fetchAddr (p : Params) (pc : Nat) : Addr :=
  match p.addresses with
  | .config => Config.fetchAddr pc
  | .successive => ⟨pc⟩

/-- The address at which the next instruction is fetched. -/
def State.insnAddr (s : State) : Addr := fetchAddr s.params s.pc

/-! ## The moves of the enclosing processor -/

/-- The class an access is checked with: an AMO is checked as a store (20_memory.md R61, R74). -/
def accessClass : AccessKind → AccessClass
  | .fetch _ => .fetch
  | .load _ => .load
  | .store _ => .storeAmo
  | .amo _ => .storeAmo

/-- The size of an access in bytes. -/
def accessSize : AccessKind → Nat
  | .fetch nbytes => nbytes
  | .load nbytes => nbytes
  | .store bytes => bytes.length
  | .amo bytes => bytes.length

/-- The bytes an access stores (log 12). -/
def storedBytes : AccessKind → List Byte
  | .fetch _ => []
  | .load _ => []
  | .store bytes => bytes
  | .amo bytes => bytes

/-- The bytes an access stores, each with its address. -/
def storedCells (p : Params) (a : Access) : List (Addr × Byte) :=
  (bytesFrom p a.addr (storedBytes a.kind).length).zip (storedBytes a.kind)

/-- A memory access of the enclosing processor: checked, then performed, or not performed (60_exceptions.md R151). What
a load or a fetch reads goes to that processor (log 12). -/
def performAccess (a : Access) (s : State) : Host.Outcome State Fault Refusal :=
  match checkAccess s (accessClass a.kind) a.priv a.addr (accessSize a.kind) with
  | .permitted => .next (s.setMem (s.mem.writeAll (storedCells s.params a)))
  | .faults => raiseException (.accessFault (accessClass a.kind)) s
  | .noMeaning n => .refused (.reservedConfig n)

/-- A reset (70_reset_and_hazards.md R170 to R172): the fields take their reset values, the values the spec leaves to
the enclosing processor are those the move carries, and no exception stands raised. Memory is not the register's and is
left alone (log 14). -/
def resetBy (d : ResetDraw) (s : State) : State :=
  (((((s.setCfg (Vector.ofFn fun n : Fin 8 => resetField s.params n d.cfg[n])).setX d.x).setPc d.pc).setPriv
    d.priv).setMxl d.mxl).setRaised none

end Sys2Proof.Machine
end

