-- ==== Sys2Proof/Machine/Csr.lean ====
section
/-! DEFINITION. The meanings of the six CSR access instructions (40_csr_access.md R118 to R123). -/

namespace Sys2Proof.Machine

/-- What all six share (40_csr_access.md section 2): the privilege test comes before any read or write (R116,
60_exceptions.md R154); then the length of the register is read from MXL (10_state.md R23), and where there is none the
access is refused (92 D6). -/
def csrAccess (i : Instr) (s : State) (effect : Len → State) : Host.Outcome State Fault Refusal :=
  if s.priv = .m then
    match lenOfMxl s.mxl with
    | some len => .next (effect len)
    | none => .refused (.mxlWithoutLength s.mxl)
  else raiseException (.illegalInstruction (encode i)) s

/-- `x[rd] <- t; pc <- pc + 4`. -/
def complete (len : Len) (rd : Nat) (t : Word) (s : State) : State :=
  (writeReg len rd t s).setPc (s.pc + 4)

/-- `csrrw rd, pmpcfg0, rs1` (40_csr_access.md R118): the write is always performed. -/
def execCsrrw (rd rs1 : Nat) (s : State) : Host.Outcome State Fault Refusal :=
  csrAccess (.csrrw rd rs1) s fun len =>
    complete len rd (readCsr len s) (writeCsr len (readReg len rs1 s) s)

/-- `csrrs rd, pmpcfg0, rs1` (40_csr_access.md R119): the write is decided by the register number. -/
def execCsrrs (rd rs1 : Nat) (s : State) : Host.Outcome State Fault Refusal :=
  csrAccess (.csrrs rd rs1) s fun len =>
    complete len rd (readCsr len s)
      (if rs1 = 0 then s else writeCsr len (readCsr len s ||| readReg len rs1 s) s)

/-- `csrrc rd, pmpcfg0, rs1` (40_csr_access.md R120): the write is decided by the register number. -/
def execCsrrc (rd rs1 : Nat) (s : State) : Host.Outcome State Fault Refusal :=
  csrAccess (.csrrc rd rs1) s fun len =>
    complete len rd (readCsr len s)
      (if rs1 = 0 then s else writeCsr len (readCsr len s &&& ~~~(readReg len rs1 s)) s)

/-- `csrrwi rd, pmpcfg0, uimm` (40_csr_access.md R121): the write is always performed. -/
def execCsrrwi (rd uimm : Nat) (s : State) : Host.Outcome State Fault Refusal :=
  csrAccess (.csrrwi rd uimm) s fun len =>
    complete len rd (readCsr len s) (writeCsr len (immediate uimm) s)

/-- `csrrsi rd, pmpcfg0, uimm` (40_csr_access.md R122): no write when the immediate is 0. -/
def execCsrrsi (rd uimm : Nat) (s : State) : Host.Outcome State Fault Refusal :=
  csrAccess (.csrrsi rd uimm) s fun len =>
    complete len rd (readCsr len s)
      (if uimm = 0 then s else writeCsr len (readCsr len s ||| immediate uimm) s)

/-- `csrrci rd, pmpcfg0, uimm` (40_csr_access.md R123): no write when the immediate is 0. -/
def execCsrrci (rd uimm : Nat) (s : State) : Host.Outcome State Fault Refusal :=
  csrAccess (.csrrci rd uimm) s fun len =>
    complete len rd (readCsr len s)
      (if uimm = 0 then s else writeCsr len (readCsr len s &&& ~~~(immediate uimm)) s)

end Sys2Proof.Machine
end

