-- ==== Sys2Proof/Machine/Run.lean ====
section
/-! DEFINITION. One instruction from its fetch on, and one move of the enclosing processor. `step` calls these. -/

namespace Sys2Proof.Machine

/-- Fetching and running the instruction at the pc. Its fetch is one access of four bytes, checked before anything
else (60_exceptions.md R154, 20_memory.md R75); a word outside the opcode map is refused (30_encoding.md R98). The bytes
are those memory holds now, so an earlier store is seen: the model's choice, which R75 leaves open (log 35). -/
def runInstruction (s : State) : Host.Outcome State Fault Refusal :=
  match checkAccess s .fetch s.priv s.insnAddr 4 with
  | .faults => raiseException (.accessFault .fetch) s
  | .noMeaning n => .refused (.reservedConfig n)
  | .permitted =>
    match s.mem.readAll (bytesFrom s.params s.insnAddr 4) with
    | .error a => .fault (.unwrittenByte a)
    | .ok bytes =>
      match decodeBytes bytes with
      | .rejected why => .refused (.outsideOpcodeMap why)
      | .instr i => exec i s

/-- One move of the enclosing processor (log 11). A change of MXL changes nothing else: the general registers keep both
halves, the model's choice (log 34). -/
def perform (m : Move) (s : State) : Host.Outcome State Fault Refusal :=
  match m with
  | .instruction => whenDelivered s (runInstruction s)
  | .access a => whenDelivered s (performAccess a s)
  | .trapEntry target mode => .next (enterTrap target mode s)
  | .trapReturn target mode => whenDelivered s (.next (returnFromTrap target mode s))
  | .setMxl mxl => whenDelivered s (.next (s.setMxl mxl))
  | .reset d => .next (resetBy d s)

/-- The parameters with every access permitted and with addresses as plain numbers (log 20). -/
def placedParams (p : Params) : Params :=
  { p with pmpMatch := .regions [], pmpCombine := .always .noFault, addresses := .successive }

/-- The state in which the very next step fetches and runs the word `w` (log 20): its bytes lie where the instruction at
the pc is fetched, no exception stands raised, no other move is pending, and the parameters let every access pass. -/
def placeInsn (s : State) (w : Insn) : State :=
  let p := placedParams s.params
  { s with
    mem := s.mem.writeAll ((bytesFrom p (fetchAddr p s.pc) 4).zip (bytesOfInsn w))
    raised := none
    agenda := []
    params := p }

end Sys2Proof.Machine
end

