-- ==== Sys2Proof/Machine/Step.lean ====
section
/-! DEFINITION. One step: the oldest pending move of the enclosing processor, or, with none pending, the next
instruction. -/

namespace Sys2Proof.Machine

def step (s : State) : Host.Outcome State Fault Refusal :=
  match s.agenda with
  | [] => perform .instruction s
  | m :: rest => perform m (s.setAgenda rest)

/-- `s` with the instruction whose bits are `w` stored where the next step fetches it (log 20). -/
def State.withFetchWord (s : State) (nbits w : Nat) : State :=
  placeInsn s (tableInsn nbits w)

end Sys2Proof.Machine
end

