-- ==== Sys2Proof/Safety.lean ====
section
/-! DEFINITION. What the statements speak of: the invariant of the reachable states, locked fields, moves, and what an
instruction that accessed the register leaves. -/

namespace Sys2Proof.Machine

/-- Field `n` is implemented: `NUM_PMP_ENTRIES > n` (10_state.md R27). -/
abbrev implemented (p : Params) (n : Fin 8) : Prop := n.val < p.numPmpEntries

/-- The stored value of field `n` is one the invariant of 10_state.md R46 allows. -/
abbrev fieldInv (p : Params) (n : Fin 8) (v : Byte) : Prop :=
  (implemented p n → legal p.pmpGranularity v = true) ∧ (¬ implemented p n → v = 0)

/-- 10_state.md R46, for all eight fields. -/
abbrev State.cfgInv (s : State) : Prop := ∀ n : Fin 8, fieldInv s.params n s.cfg[n]

/-- The invariant every step keeps: the fields as 10_state.md R46 says, memory in its canonical form. -/
abbrev State.Inv (s : State) : Prop := s.cfgInv ∧ s.mem.wf

/-- Field `n` is locked: its stored L is 1 (10_state.md R38). -/
abbrev State.locked (s : State) (n : Fin 8) : Prop := lockBit s.cfg[n] = true

/-- The move is a reset. -/
def Move.isReset : Move → Bool
  | .reset _ => true
  | _ => false

/-- The next step is a reset. -/
def State.resetNext (s : State) : Bool := s.agenda.head?.any Move.isReset

/-- The next step runs an instruction: no exception stands raised and the enclosing processor's next move, if it has
one pending, is to run an instruction. -/
def State.instructionNext (s : State) : Bool :=
  s.raised.isNone && (s.agenda.head?.getD .instruction == .instruction)

/-- The state in which the next move of the agenda is carried out. -/
def State.dropMove (s : State) : State := s.setAgenda s.agenda.tail

/-- The address of byte `k` of the next instruction's fetch. -/
def State.insnByte (s : State) (k : Nat) : Addr := byteAt s.params s.insnAddr k

/-- The word stored where the instruction at the pc is fetched, if all four of its bytes are written. -/
def State.wordAtPc (s : State) : Option Insn :=
  match s.mem.read (s.insnByte 0), s.mem.read (s.insnByte 1), s.mem.read (s.insnByte 2), s.mem.read (s.insnByte 3) with
  | some b0, some b1, some b2, some b3 => some (insnOfBytes b0 b1 b2 b3)
  | _, _, _, _ => none

/-- The next state of an outcome, if it has one. -/
def nextState (o : Host.Outcome State Fault Refusal) : Option State :=
  match o with
  | .next s => some s
  | .fault _ => none
  | .refused _ => none

/-- What an instruction that accessed the register leaves alone: everything but the fields, the general registers, the
pc and the counter of free values. -/
structure SameSurroundings (s t : State) : Prop where
  mem : t.mem = s.mem
  priv : t.priv = s.priv
  mxl : t.mxl = s.mxl
  raised : t.raised = s.raised
  agenda : t.agenda = s.agenda
  params : t.params = s.params

/-- The format in force while MXL has the value `mxl` is that of length `len` (10_state.md R23). -/
abbrev formatAt (mxl : Int) (len : Len) : Prop := (mxl = 0 ∧ len = .w32) ∨ (mxl = 1 ∧ len = .w64)

/-- Field `n` is part of the register at length `len` (10_state.md R24, R25). -/
abbrev inFormat (len : Len) (n : Fin 8) : Prop := len = .w64 ∨ n.val < 4

/-- The fields after `WRITE(v)` (40_csr_access.md R111 to R117), field by field: unchanged outside the format (R117) and
where unimplemented (R112), else what `WriteField` stores (R113). -/
abbrev fieldsAfterWrite (len : Len) (v : Word) (s t : State) : Prop :=
  ∀ n : Fin 8, t.cfg[n] =
    if inFormat len n ∧ implemented s.params n then
      writeField s.params.pmpGranularity s.cfg[n] (v.extractLsb' (8 * n.val) 8)
    else s.cfg[n]

/-- `x[rd] <- v` at length `len`, register by register: x[0] and every register but `rd` keep what they hold, and `rd`
holds the value, in the 32-bit format in its lower half (the upper half is then free, log 17). -/
abbrev registerWritten (len : Len) (rd : Nat) (v : Word) (s t : State) : Prop :=
  (∀ r : Fin 32, (r.val ≠ rd ∨ rd = 0) → t.x[r] = s.x[r]) ∧
  (∀ r : Fin 32, r.val = rd → rd ≠ 0 → t.x[r].lo = v.extractLsb' 0 32 ∧
    (len = .w64 → t.x[r].hi = v.extractLsb' 32 32))

/-- A CSR access instruction has completed: the old value of the register is in `rd`, the pc is past the instruction,
and nothing but the fields has changed besides. -/
abbrev accessCompleted (len : Len) (rd : Nat) (s t : State) : Prop :=
  registerWritten len rd (readCsr len s) s t ∧ t.pc = s.pc + 4 ∧ SameSurroundings s t

/-- The source's own function for an implemented field, as 40_csr_access.md R113 quotes it, with its masks: it returns
the attempted byte whole. -/
def sourceWriteField (g : Int) (old new : Byte) : Byte :=
  if old &&& 0x80 = 0 then
    if ¬(new &&& 0x1 = 0 ∧ new &&& 0x2 = 0x2) then
      if g < 2 ∨ new &&& 0x18 ≠ 0x10 then new else old
    else old
  else old

/-- The permission bit of an access class, by its position in a field (20_memory.md R61). -/
def permissionPosition : AccessClass → Nat
  | .fetch => 2
  | .load => 0
  | .storeAmo => 1

end Sys2Proof.Machine
end

