-- ==== Sys2Proof/Certificates/Slice0/Obligations.lean ====
section
/-! DEFINITION. The statements for the provers. -/

open Sys2Proof Sys2Proof.Machine

/-- Decoding the encoding of any well-formed instruction, whatever its operands, gives it back (30_encoding.md R95 to
R97; the binding to these instructions is the spec's decision 92 D17, log 1). -/
def Obligations.DecodeEncodeIsIdentity : Prop :=
  ∀ i : Instr, i.wf = true → decode (encode i) = .instr i

/-- The other direction: a word that decodes to an instruction is that instruction's own word, and the instruction is
well-formed, so no two words decode to one instruction (30_encoding.md R95, R97; log 1). -/
def Obligations.EncodeDecodeIsIdentity : Prop :=
  ∀ (w : Insn) (i : Instr), decode w = .instr i → i.wf = true ∧ encode i = w

/-- The opcode map of 30_encoding.md R97, row by row, with the operands of R96 read as numbers: a word is the
instruction exactly when it has the row's match under the mask. The map is from general knowledge (92 D17, log 1). -/
def Obligations.DecodeFollowsTheOpcodeMap : Prop :=
  ∀ w : Insn,
    (w &&& 0xFFF0707F = 0x3A001073 ↔
      decode w = .instr (.csrrw (w.toNat / 2 ^ 7 % 32) (w.toNat / 2 ^ 15 % 32))) ∧
    (w &&& 0xFFF0707F = 0x3A002073 ↔
      decode w = .instr (.csrrs (w.toNat / 2 ^ 7 % 32) (w.toNat / 2 ^ 15 % 32))) ∧
    (w &&& 0xFFF0707F = 0x3A003073 ↔
      decode w = .instr (.csrrc (w.toNat / 2 ^ 7 % 32) (w.toNat / 2 ^ 15 % 32))) ∧
    (w &&& 0xFFF0707F = 0x3A005073 ↔
      decode w = .instr (.csrrwi (w.toNat / 2 ^ 7 % 32) (w.toNat / 2 ^ 15 % 32))) ∧
    (w &&& 0xFFF0707F = 0x3A006073 ↔
      decode w = .instr (.csrrsi (w.toNat / 2 ^ 7 % 32) (w.toNat / 2 ^ 15 % 32))) ∧
    (w &&& 0xFFF0707F = 0x3A007073 ↔
      decode w = .instr (.csrrci (w.toNat / 2 ^ 7 % 32) (w.toNat / 2 ^ 15 % 32)))

/-- The words of 95_test_vectors.md 2.5 in its order: K1 to K10 decode as listed, and K11 and K12, which are no rows
of the map, are rejected (R98, log 21). The map is from general knowledge (92 D17, log 1). -/
def Obligations.SpecVectorsDecode : Prop :=
  decode 0x3A029373 = .instr (.csrrw 6 5) ∧
    decode 0x3A029073 = .instr (.csrrw 0 5) ∧
    decode 0x3A0023F3 = .instr (.csrrs 7 0) ∧
    decode 0x3A02A073 = .instr (.csrrs 0 5) ∧
    decode 0x3A05B573 = .instr (.csrrc 10 11) ∧
    decode 0x3A0033F3 = .instr (.csrrc 7 0) ∧
    decode 0x3A07D073 = .instr (.csrrwi 0 15) ∧
    decode 0x3A0D63F3 = .instr (.csrrsi 7 26) ∧
    decode 0x3A0DE473 = .instr (.csrrsi 8 27) ∧
    decode 0x3A00F4F3 = .instr (.csrrci 9 1) ∧
    decode 0x3A000073 = .rejected .otherFunct3 ∧ decode 0x3A101073 = .rejected .otherCsr

/-- `WriteField` of 40_csr_access.md R113 in terms of the bits: a locked old value, an attempted R = 0 with W = 1, and
an attempted NA4 with `PMP_GRANULARITY >= 2` each leave the old value whole; otherwise bits 7 and 4:0 are taken from
the attempted value and bits 6:5 from the old. That bits 6:5 are kept is the spec's own change to the source's
function (90_conflicts.md C1, log 23), and the test for NA4 follows its formal condition (C2, log 24); both are
DEDUCED. -/
def Obligations.WriteFieldFollowsItsThreeTests : Prop :=
  ∀ (g : Int) (old new : Byte),
    (old.getLsbD 7 = true → writeField g old new = old) ∧
    (new.getLsbD 0 = false ∧ new.getLsbD 1 = true → writeField g old new = old) ∧
    (2 ≤ g ∧ new.extractLsb' 3 2 = 2 → writeField g old new = old) ∧
    (old.getLsbD 7 = false → ¬(new.getLsbD 0 = false ∧ new.getLsbD 1 = true) →
      ¬(2 ≤ g ∧ new.extractLsb' 3 2 = 2) → writeField g old new = (new &&& 0x9F) ||| (old &&& 0x60))

/-- Against the source's own pseudocode, quoted in 40_csr_access.md R113: the two agree on bits 7 and 4:0 of every
result, and bits 6:5 are never written. That the prose wins for bits 6:5 is the resolution of 90_conflicts.md C1 (log
23). -/
def Obligations.WriteFieldRefinesTheSourceFunction : Prop :=
  ∀ (g : Int) (old new : Byte),
    writeField g old new = (sourceWriteField g old new &&& 0x9F) ||| (old &&& 0x60)

/-- From a field holding 0, the values some write stores are exactly the legal ones (30_encoding.md R94, a consequence
the spec derives; `Legal` is 10_state.md R45, decision 92 D3, log 6). -/
def Obligations.StoredValuesAreExactlyTheLegalOnes : Prop :=
  ∀ (g : Int) (v : Byte), (∃ new : Byte, writeField g 0 new = v) ↔ legal g v = true

/-- The counts the spec gives: 48 legal values when `PMP_GRANULARITY < 2` and 36 otherwise (10_state.md R45, log 6);
of the 256 attempted values 192 and 144 pass the second and third test (30_encoding.md R94). -/
def Obligations.LegalValuesAreCounted : Prop :=
  ∀ g : Int,
    ((List.range 256).countP fun k => legal g (BitVec.ofNat 8 k)) = (if g < 2 then 48 else 36) ∧
    ((List.range 256).countP fun k => !reservedPerms (BitVec.ofNat 8 k) && !invalidMode g (BitVec.ofNat 8 k)) =
      (if g < 2 then 192 else 144)

/-- Legality is preserved (40_csr_access.md R115 (c), derived by the spec; `Legal` is decision 92 D3, log 6). -/
def Obligations.LegalityIsKeptByAFieldWrite : Prop :=
  ∀ (g : Int) (old new : Byte), legal g old = true → legal g (writeField g old new) = true

/-- A set or clear can be dropped (40_csr_access.md R115 (f)): clearing R in a field whose W is 1, setting W in a
field whose R is 0, and setting bit 4 in a field whose A is 0 when `PMP_GRANULARITY >= 2` (log 24). -/
def Obligations.SetAndClearCanBeDropped : Prop :=
  ∀ (g : Int) (old : Byte),
    (old.getLsbD 1 = true → writeField g old (old &&& ~~~0x01) = old) ∧
    (old.getLsbD 0 = false → writeField g old (old ||| 0x02) = old) ∧
    (2 ≤ g → old.extractLsb' 3 2 = 0 → writeField g old (old ||| 0x10) = old)

/-- A write that sets L takes its other bits too (40_csr_access.md R115 (b)); an unlocked field can always be cleared,
but for bits 6:5 (R115 (g); log 23). -/
def Obligations.LockingAndClearingAnUnlockedField : Prop :=
  ∀ (g : Int) (old : Byte),
    writeField g 0 0x9F = 0x9F ∧ (old.getLsbD 7 = false → writeField g old 0 = old &&& 0x60)

/-- The value of the register (10_state.md R26): byte `n` is field `n` for every field of the format, and in the
32-bit format there is nothing above bit 31. -/
def Obligations.ReadReturnsTheFieldsOfTheFormat : Prop :=
  ∀ (len : Len) (s : State),
    (∀ n : Fin 8, inFormat len n → (readCsr len s).extractLsb' (8 * n.val) 8 = s.cfg[n]) ∧
    (len = .w32 → (readCsr len s).extractLsb' 32 32 = 0)

/-- An unimplemented field reads as 0 (40_csr_access.md R110; C3, log 26) in every state that satisfies the invariant
of 10_state.md R46. -/
def Obligations.UnimplementedFieldsReadAsZero : Prop :=
  ∀ (len : Len) (s : State) (n : Fin 8), s.cfgInv → inFormat len n → ¬ implemented s.params n →
    (readCsr len s).extractLsb' (8 * n.val) 8 = 0

/-- `WRITE(v)` (40_csr_access.md R111): every implemented field of the format takes what the field write stores for
its byte, every other field and everything outside the fields is unchanged. That fields 4 to 7 are unchanged in the
32-bit format is decision 92 D5 (R117, log 25), and that the type RO of an unimplemented field wins over the write
function is DEDUCED (C3, log 26). -/
def Obligations.WriteStoresEachFieldOfTheFormat : Prop :=
  ∀ (len : Len) (v : Word) (s : State),
    fieldsAfterWrite len v s (writeCsr len v s) ∧ SameSurroundings s (writeCsr len v s) ∧
    (writeCsr len v s).x = s.x ∧ (writeCsr len v s).pc = s.pc ∧ (writeCsr len v s).draws = s.draws

/-- Fields are independent and simultaneous (40_csr_access.md R114): two writes, to two states, that agree on field
`n` and on byte `n` leave the same in field `n`. -/
def Obligations.FieldsAreWrittenIndependently : Prop :=
  ∀ (len : Len) (v w : Word) (s t : State) (n : Fin 8), s.params = t.params → s.cfg[n] = t.cfg[n] →
    v.extractLsb' (8 * n.val) 8 = w.extractLsb' (8 * n.val) 8 →
    (writeCsr len v s).cfg[n] = (writeCsr len w t).cfg[n]

/-- Writing back what was read changes nothing (40_csr_access.md R115 (d)), in every state that satisfies the
invariant of 10_state.md R46. -/
def Obligations.WritingBackWhatWasReadChangesNothing : Prop :=
  ∀ (len : Len) (s : State), s.cfgInv → writeCsr len (readCsr len s) s = s

/-- `WRITE` is idempotent (40_csr_access.md R115 (e)); it is so in every state. -/
def Obligations.WriteIsIdempotent : Prop :=
  ∀ (len : Len) (v : Word) (s : State), writeCsr len v (writeCsr len v s) = writeCsr len v s

/-- The operand forms: `x[0]` reads as 0 and ignores writes, a register reads both halves in the 64-bit format and its
lower half in the 32-bit one (the model's reading of decision 92 D10, log 16), the immediate is zero-extended
(30_encoding.md R96). -/
def Obligations.OperandsAreReadAtTheCurrentLength : Prop :=
  ∀ (s : State) (r : Fin 32) (len : Len) (v : Word) (u : Nat),
    readReg len 0 s = 0 ∧ writeReg len 0 v s = s ∧
    (r.val ≠ 0 → readReg .w64 r s = s.x[r].hi ++ s.x[r].lo ∧ readReg .w32 r s = s.x[r].lo.setWidth 64) ∧
    (u < 32 → immediate u = BitVec.ofNat 64 u)

/-- `csrrw` in M-mode with MXL 0 or 1 completes (40_csr_access.md R118; the binding is from general knowledge,
decision 92 D17, log 1): the fields are as its write leaves them, `rd` holds the old value of the register, the pc is
past it, and nothing else changes. -/
def Obligations.CsrrwSwapsRegisterAndPmpcfg0 : Prop :=
  ∀ (rd rs1 : Nat) (s : State) (len : Len), rd < 32 → rs1 < 32 → s.priv = .m → formatAt s.mxl len →
    ∃ t, exec (.csrrw rd rs1) s = .next t ∧ fieldsAfterWrite len (readReg len rs1 s) s t ∧
      accessCompleted len rd s t

/-- `csrrs` in M-mode with MXL 0 or 1 completes (40_csr_access.md R119; the binding is from general knowledge,
decision 92 D17, log 1): the fields are as its write leaves them, `rd` holds the old value of the register, the pc is
past it, and nothing else changes. -/
def Obligations.CsrrsSetsBitsUnlessRs1IsX0 : Prop :=
  ∀ (rd rs1 : Nat) (s : State) (len : Len), rd < 32 → rs1 < 32 → s.priv = .m → formatAt s.mxl len →
    ∃ t, exec (.csrrs rd rs1) s = .next t ∧ (rs1 = 0 → t.cfg = s.cfg) ∧
      (rs1 ≠ 0 → fieldsAfterWrite len (readCsr len s ||| readReg len rs1 s) s t) ∧
      accessCompleted len rd s t

/-- `csrrc` in M-mode with MXL 0 or 1 completes (40_csr_access.md R120; the binding is from general knowledge,
decision 92 D17, log 1): the fields are as its write leaves them, `rd` holds the old value of the register, the pc is
past it, and nothing else changes. -/
def Obligations.CsrrcClearsBitsUnlessRs1IsX0 : Prop :=
  ∀ (rd rs1 : Nat) (s : State) (len : Len), rd < 32 → rs1 < 32 → s.priv = .m → formatAt s.mxl len →
    ∃ t, exec (.csrrc rd rs1) s = .next t ∧ (rs1 = 0 → t.cfg = s.cfg) ∧
      (rs1 ≠ 0 → fieldsAfterWrite len (readCsr len s &&& ~~~(readReg len rs1 s)) s t) ∧
      accessCompleted len rd s t

/-- `csrrwi` in M-mode with MXL 0 or 1 completes (40_csr_access.md R121; the binding is from general knowledge,
decision 92 D17, log 1): the fields are as its write leaves them, `rd` holds the old value of the register, the pc is
past it, and nothing else changes. -/
def Obligations.CsrrwiWritesTheImmediate : Prop :=
  ∀ (rd uimm : Nat) (s : State) (len : Len), rd < 32 → uimm < 32 → s.priv = .m → formatAt s.mxl len →
    ∃ t, exec (.csrrwi rd uimm) s = .next t ∧ fieldsAfterWrite len (BitVec.ofNat 64 uimm) s t ∧
      accessCompleted len rd s t

/-- `csrrsi` in M-mode with MXL 0 or 1 completes (40_csr_access.md R122; the binding is from general knowledge,
decision 92 D17, log 1): the fields are as its write leaves them, `rd` holds the old value of the register, the pc is
past it, and nothing else changes. -/
def Obligations.CsrrsiSetsBitsUnlessTheImmediateIsZero : Prop :=
  ∀ (rd uimm : Nat) (s : State) (len : Len), rd < 32 → uimm < 32 → s.priv = .m → formatAt s.mxl len →
    ∃ t, exec (.csrrsi rd uimm) s = .next t ∧ (uimm = 0 → t.cfg = s.cfg) ∧
      (uimm ≠ 0 → fieldsAfterWrite len (readCsr len s ||| BitVec.ofNat 64 uimm) s t) ∧
      accessCompleted len rd s t

/-- `csrrci` in M-mode with MXL 0 or 1 completes (40_csr_access.md R123; the binding is from general knowledge,
decision 92 D17, log 1): the fields are as its write leaves them, `rd` holds the old value of the register, the pc is
past it, and nothing else changes. -/
def Obligations.CsrrciClearsBitsUnlessTheImmediateIsZero : Prop :=
  ∀ (rd uimm : Nat) (s : State) (len : Len), rd < 32 → uimm < 32 → s.priv = .m → formatAt s.mxl len →
    ∃ t, exec (.csrrci rd uimm) s = .next t ∧ (uimm = 0 → t.cfg = s.cfg) ∧
      (uimm ≠ 0 → fieldsAfterWrite len (readCsr len s &&& ~~~(BitVec.ofNat 64 uimm)) s t) ∧
      accessCompleted len rd s t

/-- An immediate set or clear changes field 0 only (40_csr_access.md R122, R123, corner cases; 30_encoding.md R96), in
every state that satisfies the invariant of 10_state.md R46: the other fields are written back as read. Field 0 keeps
its L. -/
def Obligations.ImmediateSetAndClearReachFieldZeroOnly : Prop :=
  ∀ (i : Instr) (rd uimm : Nat) (s t : State), (i = .csrrsi rd uimm ∨ i = .csrrci rd uimm) → s.cfgInv →
    s.priv = .m → exec i s = .next t →
    (∀ n : Fin 8, n.val ≠ 0 → t.cfg[n] = s.cfg[n]) ∧ lockBit t.cfg[0] = lockBit s.cfg[0]

/-- An access from a mode other than M (40_csr_access.md R116, decision 92 D1, log 9): the exception stands raised
with the instruction's word, and no field, no register and not the pc changes, whatever MXL is. -/
def Obligations.OutsideMModeIllegalInstructionIsRaised : Prop :=
  ∀ (i : Instr) (s : State), s.priv ≠ .m →
    exec i s = .next (s.setRaised (some (.illegalInstruction (encode i))))

/-- MXL neither 0 nor 1 (10_state.md R23, decision 92 D6, log 7): the register has no length and the access is
refused. -/
def Obligations.WithoutALengthTheAccessIsRefused : Prop :=
  ∀ (i : Instr) (s : State), s.priv = .m → s.mxl ≠ 0 → s.mxl ≠ 1 →
    exec i s = .refused (.mxlWithoutLength s.mxl)

/-- Write, then read back (70_reset_and_hazards.md R173, decision 92 D8): after `csrrw` of an attempted value whose
byte `n` is legal, an implemented field of the format holds that byte if it was unlocked and its old value if it was
locked. -/
def Obligations.AWrittenValueReadsBackUnlessLocked : Prop :=
  ∀ (rd rs1 : Nat) (s t : State) (len : Len) (n : Fin 8), s.priv = .m → formatAt s.mxl len → s.cfgInv →
    inFormat len n → implemented s.params n →
    legal s.params.pmpGranularity ((readReg len rs1 s).extractLsb' (8 * n.val) 8) = true →
    exec (.csrrw rd rs1) s = .next t →
    (readCsr len t).extractLsb' (8 * n.val) 8 =
      if lockBit s.cfg[n] then s.cfg[n] else (readReg len rs1 s).extractLsb' (8 * n.val) 8

/-- A step runs the decoded instruction: no exception stands raised, the next move is to run an instruction, the check
of the fetch passes, the four bytes it is fetched from are written and their word (byte order: log 19) decodes. The
step is then `exec` in the state whose agenda has lost that move, and nothing is added around it. -/
def Obligations.StepRunsTheDecodedInstruction : Prop :=
  ∀ (s : State) (w : Insn) (i : Instr), s.instructionNext = true →
    checkAccess s .fetch s.priv s.insnAddr 4 = .permitted → s.wordAtPc = some w → decode w = .instr i →
    step s = exec i s.dropMove

/-- The fetch is checked before the instruction executes (60_exceptions.md R154, decision 92 D21): when the check
fails, the step raises `AccessFault(fetch)` whatever lies at the pc and whatever the mode is, and changes nothing
else. -/
def Obligations.AFailedFetchRaisesAccessFault : Prop :=
  ∀ s : State, s.instructionNext = true → checkAccess s .fetch s.priv s.insnAddr 4 = .faults →
    step s = .next (s.dropMove.setRaised (some (.accessFault .fetch)))

/-- Every word that matches no row of the map is outside the spec and refused (30_encoding.md R98, decision 92 D18,
log 21). -/
def Obligations.WordsOutsideTheMapAreRefused : Prop :=
  ∀ (s : State) (w : Insn), s.instructionNext = true →
    checkAccess s .fetch s.priv s.insnAddr 4 = .permitted → s.wordAtPc = some w →
    w &&& 0xFFF0707F ≠ 0x3A001073 → w &&& 0xFFF0707F ≠ 0x3A002073 → w &&& 0xFFF0707F ≠ 0x3A003073 →
    w &&& 0xFFF0707F ≠ 0x3A005073 → w &&& 0xFFF0707F ≠ 0x3A006073 → w &&& 0xFFF0707F ≠ 0x3A007073 →
    ∃ why, step s = .refused (.outsideOpcodeMap why)

/-- Memory nothing has written has no value, the model's choice (log 18): a permitted fetch of four bytes, one of
which is not written, stops with a fault that names such a byte. -/
def Obligations.FetchingAnUnwrittenByteFaults : Prop :=
  ∀ s : State, s.instructionNext = true → checkAccess s .fetch s.priv s.insnAddr 4 = .permitted →
    s.wordAtPc = none →
    ∃ k, k < 4 ∧ step s = .fault (.unwrittenByte (s.insnByte k)) ∧ s.mem.read (s.insnByte k) = none

/-- A program is loaded from outside, which `withFetchWord` stands for, the model's choice (log 20): in any state, the
very next step runs exactly the placed instruction, and the fields, the registers, the pc, the mode and MXL are as
they were. -/
def Obligations.APlacedWordIsTheNextInstruction : Prop :=
  ∀ (s : State) (w : Nat) (i : Instr), decode (BitVec.ofNat 32 w) = .instr i →
    step (s.withFetchWord 32 w) = exec i (s.withFetchWord 32 w) ∧
    (s.withFetchWord 32 w).cfg = s.cfg ∧ (s.withFetchWord 32 w).x = s.x ∧ (s.withFetchWord 32 w).pc = s.pc ∧
    (s.withFetchWord 32 w).priv = s.priv ∧ (s.withFetchWord 32 w).mxl = s.mxl

/-- The verdict of one entry on one access (20_memory.md R64; R63 is decision 92 D27, log 27): `noMatch` when the
entry is unimplemented, off, or its region does not cover the access; else `fault` when the check applies to the mode
(any but M, or M with L = 1) and the permission bit of the class is 0; else `noFault`. `PmpMatch` is asked with the
mode that bits 4:3 name: OFF, TOR, NA4, NAPOT for 0 to 3 (10_state.md R40, 30_encoding.md R92). -/
def Obligations.EntryVerdictFaultsExactlyWhen : Prop :=
  ∀ (p : Params) (n : Nat) (v : Byte) (c : AccessClass) (priv : Priv) (addr : Addr) (nbytes : Nat),
    let mode : AddrMode := if v.extractLsb' 3 2 = 0 then .off else if v.extractLsb' 3 2 = 1 then .tor
      else if v.extractLsb' 3 2 = 2 then .na4 else .napot
    let covered := n < p.numPmpEntries ∧ mode ≠ .off ∧ pmpMatch p n mode addr nbytes = true
    let applies := priv ≠ .m ∨ v.getLsbD 7 = true
    let permitted := v.getLsbD (permissionPosition c) = true
    (entryVerdict p n v c priv addr nbytes = .noMatch ↔ ¬ covered) ∧
    (entryVerdict p n v c priv addr nbytes = .fault ↔ covered ∧ applies ∧ ¬ permitted) ∧
    (entryVerdict p n v c priv addr nbytes = .noFault ↔ covered ∧ (¬ applies ∨ permitted))

/-- A disabled entry (20_memory.md R62): A = 0 matches no access, so none of its bits causes a fault; its L still
locks the field against writes. -/
def Obligations.DisabledEntryMatchesNothing : Prop :=
  ∀ (p : Params) (n : Nat) (v : Byte), v.extractLsb' 3 2 = 0 →
    (∀ (c : AccessClass) (priv : Priv) (addr : Addr) (nbytes : Nat), entryVerdict p n v c priv addr nbytes = .noMatch) ∧
    (v.getLsbD 7 = true → ∀ (g : Int) (new : Byte), writeField g v new = v)

/-- Nothing else enters the verdict of an entry (20_memory.md R68, derived by the spec): verdict `n` of a check is
that of field `n`, and it is the same in any two states that agree on the parameters and on bits 7 and 4:0 of field
`n`, whatever MXL, the other fields and bits 6:5 are. That the parameters hold nothing else is the model's choice (log
3). -/
def Obligations.VerdictDependsOnItsOwnFieldOnly : Prop :=
  ∀ (s t : State) (n : Fin 8) (c : AccessClass) (priv : Priv) (addr : Addr) (nbytes : Nat),
    s.params = t.params → s.cfg[n] &&& 0x9F = t.cfg[n] &&& 0x9F →
    (verdicts s c priv addr nbytes)[n.val]? = some (entryVerdict s.params n s.cfg[n] c priv addr nbytes) ∧
    (verdicts t c priv addr nbytes)[n.val]? = (verdicts s c priv addr nbytes)[n.val]?

/-- Whether an AMO needs R as well cannot be seen within one entry (20_memory.md R74, derived by the spec): a legal
entry that does not fault a store or AMO does not fault a load. -/
def Obligations.AnAmoThatPassesWPassesR : Prop :=
  ∀ (p : Params) (n : Nat) (v : Byte) (priv : Priv) (addr : Addr) (nbytes : Nat),
    legal p.pmpGranularity v = true → entryVerdict p n v .storeAmo priv addr nbytes ≠ .fault →
    entryVerdict p n v .load priv addr nbytes ≠ .fault

/-- The check of an access combines the verdicts of entries 0 to 7 in entry order (20_memory.md R67, decision 92 D23,
log 4). Under the invariant of 10_state.md R46 no entry stores a value without a meaning, so the check is never
refused (log 22). -/
def Obligations.TheCheckIsTheCombinationOfTheVerdicts : Prop :=
  ∀ (s : State) (c : AccessClass) (priv : Priv) (addr : Addr) (nbytes : Nat), s.cfgInv →
    checkAccess s c priv addr nbytes =
      match pmpCombine s.params priv
        (List.ofFn fun n : Fin 8 => entryVerdict s.params n s.cfg[n] c priv addr nbytes) with
      | .fault => .faults
      | .noFault => .permitted

/-- A state that stores R = 0 with W = 1, or NA4 where it is not valid, in an implemented and enabled entry: the
source gives it no meaning (93 U3, U4). Where the entry covers the next instruction's fetch, or the access of the
enclosing processor that is the next move, the step is refused. That only a covering entry counts is the model's
choice (log 22). -/
def Obligations.AMeaninglessEntryIsRefused : Prop :=
  ∀ (s : State) (n : Fin 8), implemented s.params n → s.cfg[n].extractLsb' 3 2 ≠ 0 →
    ((s.cfg[n].getLsbD 0 = false ∧ s.cfg[n].getLsbD 1 = true) ∨
      (2 ≤ s.params.pmpGranularity ∧ s.cfg[n].extractLsb' 3 2 = 2)) →
    (s.instructionNext = true → pmpMatch s.params n (addrMode s.cfg[n]) s.insnAddr 4 = true →
      ∃ k, step s = .refused (.reservedConfig k)) ∧
    (∀ (a : Access) (rest : List Move), s.agenda = .access a :: rest → s.raised = none →
      pmpMatch s.params n (addrMode s.cfg[n]) a.addr (accessSize a.kind) = true →
      ∃ k, step s = .refused (.reservedConfig k))

/-- A failed access of the enclosing processor causes an Access Fault of its class and is not performed
(60_exceptions.md R151, R155): no byte, no register and no field changes. That a failed access is not performed is
from general knowledge (93 G14, log 12). -/
def Obligations.AFailedAccessIsNotPerformed : Prop :=
  ∀ (s : State) (a : Access) (rest : List Move), s.agenda = .access a :: rest → s.raised = none →
    checkAccess s (accessClass a.kind) a.priv a.addr (accessSize a.kind) = .faults →
    step s = .next ((s.setAgenda rest).setRaised (some (.accessFault (accessClass a.kind))))

/-- A permitted access of the enclosing processor: a store or AMO puts its bytes in their order at the addresses that
the parameter `byteAt` gives (log 18), every other byte is as before, and a load or fetch stores nothing, so every
byte is as before (log 12). -/
def Obligations.APermittedAccessStoresItsBytesOnly : Prop :=
  ∀ (s : State) (a : Access) (rest : List Move), s.agenda = .access a :: rest → s.raised = none →
    checkAccess s (accessClass a.kind) a.priv a.addr (accessSize a.kind) = .permitted →
    ∃ t, step s = .next t ∧
      (∀ k, k < (storedBytes a.kind).length →
        (∀ j, k < j → j < (storedBytes a.kind).length → byteAt s.params a.addr j ≠ byteAt s.params a.addr k) →
        t.mem.read (byteAt s.params a.addr k) = (storedBytes a.kind)[k]?) ∧
      (∀ b, (∀ k, k < (storedBytes a.kind).length → b ≠ byteAt s.params a.addr k) →
        t.mem.read b = s.mem.read b) ∧
      t.agenda = rest ∧ t.cfg = s.cfg ∧ t.x = s.x ∧ t.pc = s.pc ∧ t.priv = s.priv ∧ t.mxl = s.mxl ∧
      t.raised = none ∧ t.params = s.params

/-- Trap entry and return are the enclosing processor's and do not change the fields (60_exceptions.md R156, R157,
decision 92 D22). Entry takes the raised exception. That they change no register, byte or MXL is the model's choice
(log 13). -/
def Obligations.TrapEntryAndReturnKeepTheFields : Prop :=
  ∀ (s : State) (target : Nat) (mode : Priv) (rest : List Move),
    (s.agenda = .trapEntry target mode :: rest →
      ∃ t, step s = .next t ∧ t.cfg = s.cfg ∧ t.raised = none ∧ t.pc = target ∧ t.priv = mode ∧ t.x = s.x ∧
        t.mem = s.mem ∧ t.mxl = s.mxl ∧ t.agenda = rest ∧ t.params = s.params) ∧
    (s.agenda = .trapReturn target mode :: rest → s.raised = none →
      ∃ t, step s = .next t ∧ t.cfg = s.cfg ∧ t.raised = none ∧ t.pc = target ∧ t.priv = mode ∧ t.x = s.x ∧
        t.mem = s.mem ∧ t.mxl = s.mxl ∧ t.agenda = rest ∧ t.params = s.params)

/-- Delivery belongs to the enclosing processor (60_exceptions.md R156, decision 92 D22): while an exception stands
raised, a step that is neither its trap entry nor a reset stops with a fault that names it, the model's choice (log
10). -/
def Obligations.ARaisedExceptionWaitsForItsTrapEntry : Prop :=
  ∀ (s : State) (e : Exception), s.raised = some e → s.resetNext = false →
    (∀ target mode, s.agenda.head? ≠ some (.trapEntry target mode)) → step s = .fault (.undelivered e)

/-- A reset (10_state.md R28, R49; 70 R170, R172; decisions 92 D3, D4, log 5, log 14): unimplemented fields hold 0,
implemented ones a legal value, and every legal drawn value is the one held; mode and MXL are those the enclosing
processor brings. That the registers and the pc are the move's too, and that memory is left alone, is the model's
choice (log 14), as is what a draw that is not legal stands for (log 5). -/
def Obligations.AResetLeavesAdmissibleFields : Prop :=
  ∀ (s : State) (d : ResetDraw) (rest : List Move), s.agenda = .reset d :: rest →
    ∃ t, step s = .next t ∧
      (∀ n : Fin 8, (implemented s.params n → legal s.params.pmpGranularity t.cfg[n] = true) ∧
        (implemented s.params n → legal s.params.pmpGranularity d.cfg[n] = true → t.cfg[n] = d.cfg[n]) ∧
        (¬ implemented s.params n → t.cfg[n] = 0)) ∧
      t.x = d.x ∧ t.pc = d.pc ∧ t.priv = d.priv ∧ t.mxl = d.mxl ∧ t.raised = none ∧ t.mem = s.mem ∧
      t.agenda = rest ∧ t.params = s.params

/-- Fields 4 to 7 keep their values while the register is 32 bits long and are visible again when MXL becomes 1
(10_state.md R47, decision 92 D5, log 25): an instruction runs with MXL 0, then the next move sets MXL to 1. -/
def Obligations.SwitchingTheFormatShowsTheKeptFields : Prop :=
  ∀ (i : Instr) (s t u : State) (rest : List Move) (n : Fin 8), s.mxl = 0 → exec i s = .next t →
    t.agenda = .setMxl 1 :: rest → step t = .next u → 4 ≤ n.val →
    u.mxl = 1 ∧ (readCsr .w64 u).extractLsb' (8 * n.val) 8 = s.cfg[n]

/-- A change of MXL (10_state.md R23): the fields stay as they are (R47, decision 92 D5, log 25). That both halves of
every general register, the pc, the mode and memory do so too is the model's choice, as the spec is silent on them
(log 34). -/
def Obligations.AChangeOfMxlChangesNothingElse : Prop :=
  ∀ (s : State) (v : Int) (rest : List Move), s.agenda = .setMxl v :: rest → s.raised = none →
    ∃ t, step s = .next t ∧ t.mxl = v ∧ t.cfg = s.cfg ∧ t.x = s.x ∧ t.pc = s.pc ∧ t.priv = s.priv ∧
      t.mem = s.mem ∧ t.raised = none ∧ t.agenda = rest ∧ t.params = s.params

/-- There is one memory, which the fetch of an instruction reads as the last store left it: the model's choice, since
R75 says that the source does not state whether a store is seen by a later instruction fetch (log 35). -/
def Obligations.AStoreIsSeenByALaterFetch : Prop :=
  ∀ (s : State) (priv : Priv) (rest : List Move) (w : Insn),
    s.agenda = .access ⟨.store (bytesOfInsn w), priv, s.insnAddr⟩ :: rest → s.raised = none →
    checkAccess s .storeAmo priv s.insnAddr 4 = .permitted →
    (∀ j k, j < 4 → k < 4 → j ≠ k → s.insnByte j ≠ s.insnByte k) →
    ∃ t, step s = .next t ∧ t.wordAtPc = some w ∧ t.agenda = rest ∧ t.pc = s.pc ∧ t.cfg = s.cfg ∧ t.x = s.x ∧
      ∀ i, decode w = .instr i → t.instructionNext = true →
        checkAccess t .fetch t.priv t.insnAddr 4 = .permitted → step t = exec i t.dropMove

/-- The invariant of 10_state.md R46 and the canonical form of memory hold after reset, for every value of the
parameters (`Legal` is decision 92 D3, log 6). -/
def Obligations.InvariantHoldsAfterReset : Prop :=
  State.reset.Inv

/-- The invariant of 10_state.md R46 (no reserved value is ever stored, unimplemented fields are 0 for ever) and the
canonical form of memory are kept by every step: instructions, memory accesses, traps, changes of MXL and resets. -/
def Obligations.EveryStepKeepsTheInvariant : Prop :=
  ∀ s t : State, s.Inv → step s = .next t → t.Inv

/-- A lock is permanent but for reset (10_state.md R38; 40_csr_access.md R115 (a); 70 R171): whatever a step does in
whatever state, a field whose L is 1 is unchanged unless the step is a reset. That no outside agent has a move is
decision 92 D28 (log 29). -/
def Obligations.LockedFieldsChangeOnlyByReset : Prop :=
  ∀ (s t : State) (n : Fin 8), s.locked n → s.resetNext = false → step s = .next t → t.cfg[n] = s.cfg[n]

/-- No sequence of steps without a reset clears a stored L (40_csr_access.md R115 (a)): along every run, from every
state, whose pending moves hold no reset, a locked field keeps its value. That no outside agent has a move is decision
92 D28 (log 29). -/
def Obligations.LocksSurviveEveryRunWithoutReset : Prop :=
  ∀ (k : Nat) (s t : State) (n : Fin 8), (∀ m ∈ s.agenda, m.isReset = false) → s.locked n →
    Sys2Proof.core.run k s = .next t → t.cfg[n] = s.cfg[n]

/-- The moves on the fields are exactly reset and a software write in M-mode (70 R176, decision 92 D28, log 29): when
a step changes a field, it is a reset, or it ran, in M-mode and with its fetch permitted, the instruction decoded at
the pc. -/
def Obligations.FieldsChangeOnlyByMModeInstructionOrReset : Prop :=
  ∀ s t : State, step s = .next t → t.cfg ≠ s.cfg → s.resetNext = true ∨
    (s.instructionNext = true ∧ s.priv = .m ∧ checkAccess s .fetch s.priv s.insnAddr 4 = .permitted ∧
      ∃ w i, s.wordAtPc = some w ∧ decode w = .instr i ∧ exec i s.dropMove = .next t)

/-- There is no way to reach fields 4 to 7 while MXL is 0 (40_csr_access.md R117, decision 92 D5, log 25). -/
def Obligations.TheNarrowFormatKeepsTheUpperFields : Prop :=
  ∀ (s t : State) (n : Fin 8), s.mxl = 0 → 4 ≤ n.val → s.resetNext = false → step s = .next t →
    t.cfg[n] = s.cfg[n]

/-- No step, a reset included, changes the parameters. For NUM_PMP_ENTRIES and PMP_GRANULARITY that is decision 92 D7
(00_scope.md R6). That PmpMatch, PmpCombine and the addresses, which R7, R60, R66 and R67 take as arguments, never
change during a run is the model's choice (log 2, log 3, log 18). -/
def Obligations.ParametersAreStatic : Prop :=
  ∀ s t : State, step s = .next t → t.params = s.params

/-- The register takes part in no load and no store of its own (40_csr_access.md R124, decision 92 D11; 20_memory.md
R60): a step that is no access of the enclosing processor leaves every byte of memory as it was. That a trap entry or
return (log 13), a reset (log 14) and a change of MXL (log 34) do so is the model's choice. -/
def Obligations.MemoryChangesOnlyByAccesses : Prop :=
  ∀ s t : State, step s = .next t → (∀ a, s.agenda.head? ≠ some (.access a)) →
    ∀ b, t.mem.read b = s.mem.read b

/-- A general register changes only by a reset or as the destination of an instruction that ran in M-mode; x[0] only
by a reset (40_csr_access.md section 2 and R116, decisions 92 D1 and D10). That loads and other accesses (log 12),
trap entries and returns (log 13) and changes of MXL (log 34) change none is the model's choice. -/
def Obligations.RegistersChangeOnlyAtTheDestination : Prop :=
  ∀ (s t : State) (r : Fin 32), step s = .next t → t.x[r] ≠ s.x[r] → s.resetNext = true ∨
    (s.instructionNext = true ∧ s.priv = .m ∧ r.val ≠ 0 ∧
      ∃ w i, s.wordAtPc = some w ∧ decode w = .instr i ∧ (rdOf w).toNat = r.val)

/-- The exceptions a step can end with (60_exceptions.md R150, decision 92 D1): `AccessFault(fetch)` for a failed
fetch, `IllegalInstruction` with its word for an instruction of the map whose fetch was permitted (R154) outside
M-mode (log 9), and `AccessFault` of its class for a failed access. In each case nothing but the record and the
finished move changes (R155; log 10). -/
def Obligations.ExceptionsAriseOnlyAsListed : Prop :=
  ∀ (s t : State) (e : Exception), step s = .next t → t.raised = some e →
    t = s.dropMove.setRaised (some e) ∧ s.raised = none ∧
    ((s.instructionNext = true ∧ e = .accessFault .fetch ∧ checkAccess s .fetch s.priv s.insnAddr 4 = .faults) ∨
      (s.instructionNext = true ∧ s.priv ≠ .m ∧ checkAccess s .fetch s.priv s.insnAddr 4 = .permitted ∧
        ∃ w i, s.wordAtPc = some w ∧ decode w = .instr i ∧ e = .illegalInstruction w) ∨
      (∃ a, s.agenda.head? = some (.access a) ∧ e = .accessFault (accessClass a.kind) ∧
        checkAccess s (accessClass a.kind) a.priv a.addr (accessSize a.kind) = .faults))
end

