-- ==== Sys2Proof/Laws/Decode.lean ====
section
/-! SUPPORT. The fields of an encoded word, the decoder on the opcode map, and the bytes of a word. -/

namespace Sys2Proof

@[simp] theorem opcodeOf_formatI (a d : Nat) (f : BitVec 3) : opcodeOf (formatI a f d) = opcodeSystem := by
  unfold opcodeOf formatI
  ext k hk
  simp only [BitVec.getElem_extractLsb', BitVec.getLsbD_append]
  interval_cases k <;> simp

@[simp] theorem rdOf_formatI (a d : Nat) (f : BitVec 3) : rdOf (formatI a f d) = BitVec.ofNat 5 d := by
  unfold rdOf formatI
  generalize BitVec.ofNat 5 d = y
  ext k hk
  simp only [BitVec.getElem_extractLsb', BitVec.getLsbD_append]
  interval_cases k <;> simp

@[simp] theorem funct3Of_formatI (a d : Nat) (f : BitVec 3) : funct3Of (formatI a f d) = f := by
  unfold funct3Of formatI
  ext k hk
  simp only [BitVec.getElem_extractLsb', BitVec.getLsbD_append]
  interval_cases k <;> simp

@[simp] theorem rs1Of_formatI (a d : Nat) (f : BitVec 3) : rs1Of (formatI a f d) = BitVec.ofNat 5 a := by
  unfold rs1Of formatI
  generalize BitVec.ofNat 5 a = x
  ext k hk
  simp only [BitVec.getElem_extractLsb', BitVec.getLsbD_append]
  interval_cases k <;> simp

@[simp] theorem csrOf_formatI (a d : Nat) (f : BitVec 3) : csrOf (formatI a f d) = csrPmpcfg0 := by
  unfold csrOf formatI
  ext k hk
  simp only [BitVec.getElem_extractLsb', BitVec.getLsbD_append]
  interval_cases k <;> simp

/-- The word of a format's fields has those fields. -/
theorem insn_of_fields (w : Insn) : csrOf w ++ rs1Of w ++ funct3Of w ++ rdOf w ++ opcodeOf w = w := by
  unfold csrOf rs1Of funct3Of rdOf opcodeOf
  ext k hk
  simp only [BitVec.getElem_append, BitVec.getElem_extractLsb']
  interval_cases k <;> simp

/-- The bytes of a word, put together, are the word. -/
theorem insnOfBytes_of_insn (w : Insn) :
    insnOfBytes (w.extractLsb' 0 8) (w.extractLsb' 8 8) (w.extractLsb' 16 8) (w.extractLsb' 24 8) = w := by
  unfold insnOfBytes
  ext k hk
  simp only [BitVec.getElem_append, BitVec.getElem_extractLsb']
  interval_cases k <;> simp

theorem decodeBytes_of_insn (w : Insn) : decodeBytes (bytesOfInsn w) = decode w := by
  simp [decodeBytes, bytesOfInsn, insnOfBytes_of_insn]

/-- On a word with the opcode and the CSR address of the format, `funct3` decides. -/
theorem decode_of_fields (w : Insn) (ho : opcodeOf w = opcodeSystem) (hc : csrOf w = csrPmpcfg0) :
    decode w = decodeFunct3 w := by
  simp [decode, ho, hc]

/-- Whatever decodes has the opcode and the CSR address of the format. -/
theorem decode_instr_fields (w : Insn) (i : Instr) (h : decode w = .instr i) :
    opcodeOf w = opcodeSystem ∧ csrOf w = csrPmpcfg0 ∧ decodeFunct3 w = .instr i := by
  unfold decode at h
  split at h
  · cases h
  · rename_i ho
    split at h
    · cases h
    · rename_i hc
      exact ⟨not_not.mp ho, not_not.mp hc, h⟩

end Sys2Proof
end

