-- ==== Sys2Proof/Laws/Fields.lean ====
section
/-! SUPPORT. What the operations on one configuration field can answer. -/

namespace Sys2Proof.Machine

theorem writeField_locked (g : Int) (old new : Byte) (h : lockBit old = true) : writeField g old new = old := by
  simp [writeField, h]

theorem writeField_reservedPerms (g : Int) (old new : Byte) (h : reservedPerms new = true) :
    writeField g old new = old := by
  simp [writeField, h]

theorem writeField_invalidMode (g : Int) (old new : Byte) (h : invalidMode g new = true) :
    writeField g old new = old := by
  simp [writeField, h]

theorem writeField_accepted (g : Int) (old new : Byte) (hl : lockBit old = false) (hr : reservedPerms new = false)
    (hm : invalidMode g new = false) : writeField g old new = (new &&& 0x9F) ||| (old &&& 0x60) := by
  simp [writeField, hl, hr, hm]

/-- Everything a field write can answer: the old value, or, when all three tests pass, the accepted value. -/
theorem writeField_cases (g : Int) (old new : Byte) :
    writeField g old new = old ∨
      (lockBit old = false ∧ reservedPerms new = false ∧ invalidMode g new = false ∧
        writeField g old new = (new &&& 0x9F) ||| (old &&& 0x60)) := by
  cases hl : lockBit old
  · cases hr : reservedPerms new
    · cases hm : invalidMode g new
      · exact .inr ⟨rfl, rfl, rfl, writeField_accepted g old new hl hr hm⟩
      · exact .inl (writeField_invalidMode g old new hm)
    · exact .inl (writeField_reservedPerms g old new hr)
  · exact .inl (writeField_locked g old new hl)

theorem storeField_unimplemented (p : Params) (n : Nat) (old new : Byte) (h : p.numPmpEntries ≤ n) :
    storeField p n old new = old := by
  simp [storeField, h]

theorem storeField_implemented (p : Params) (n : Nat) (old new : Byte) (h : n < p.numPmpEntries) :
    storeField p n old new = writeField p.pmpGranularity old new := by
  simp [storeField, Nat.not_le.mpr h]

@[simp] theorem legal_zero (g : Int) : legal g 0#8 = true := by
  unfold legal invalidMode
  generalize decide (2 ≤ g) = b
  cases b <;> decide

theorem resetField_unimplemented (p : Params) (n : Nat) (d : Byte) (h : p.numPmpEntries ≤ n) :
    resetField p n d = 0 := by
  simp [resetField, h]

/-- An admissible draw is what an implemented field holds after reset. -/
theorem resetField_admissible (p : Params) (n : Nat) (d : Byte) (h : n < p.numPmpEntries)
    (hd : legal p.pmpGranularity d = true) : resetField p n d = d := by
  simp [resetField, Nat.not_le.mpr h, hd]

theorem resetField_inadmissible (p : Params) (n : Nat) (d : Byte) (hd : legal p.pmpGranularity d = false) :
    resetField p n d = 0 := by
  simp [resetField, hd]

end Sys2Proof.Machine
end

