-- ==== Sys2Proof/Laws/Memory.lean ====
section
/-! SUPPORT. What the memory operations do: read after write, the frame of a write, and the canonical form. -/

namespace Sys2Proof.Machine

@[simp] theorem Memory.read_nil (a : Addr) : Memory.read [] a = none := rfl

theorem Memory.read_cons (k : Nat) (v : Byte) (m : Memory) (a : Addr) :
    Memory.read ((k, v) :: m) a = if a.id = k then some v else Memory.read m a := rfl

/-- A written byte reads as what was written. -/
@[simp] theorem Memory.read_write_self (m : Memory) (a : Addr) (b : Byte) : (m.write a b).read a = some b := by
  induction m with
  | nil => simp [Memory.write, Memory.read]
  | cons p m ih =>
    obtain ⟨k, v⟩ := p
    simp only [Memory.write]
    split
    · simp [Memory.read]
    · split
      · simp [Memory.read]
      · rename_i h
        simp [Memory.read, h, ih]

/-- Addresses that differ have different numbers. -/
theorem id_ne_of_ne {a c : Addr} (h : c ≠ a) : c.id ≠ a.id := fun e => h (by cases a; cases c; simp_all)

/-- A write leaves every other byte alone. -/
theorem Memory.read_write_other (m : Memory) (a c : Addr) (b : Byte) (h : c ≠ a) :
    (m.write a b).read c = m.read c := by
  replace h := id_ne_of_ne h
  induction m with
  | nil => simp [Memory.write, Memory.read, h]
  | cons p m ih =>
    obtain ⟨k, v⟩ := p
    simp only [Memory.write]
    split
    · simp [Memory.read, h]
    · split
      · rename_i hk
        subst hk
        simp [Memory.read, h]
      · simp [Memory.read, ih]

/-- Every address a write lists was listed before or is the written one. -/
theorem Memory.mem_write (m : Memory) (a : Addr) (b : Byte) (p : Host.Cell) (h : p ∈ m.write a b) :
    p ∈ m ∨ p = (a.id, b) := by
  induction m with
  | nil => simpa [Memory.write] using h
  | cons q m ih =>
    obtain ⟨k, v⟩ := q
    simp only [Memory.write] at h
    split at h
    · simp only [List.mem_cons] at h ⊢; tauto
    · split at h
      · simp only [List.mem_cons] at h ⊢; tauto
      · simp only [List.mem_cons] at h ⊢
        rcases h with h | h
        · exact .inl (.inl h)
        · rcases ih h with h | h
          · exact .inl (.inr h)
          · exact .inr h

/-- Writing a byte keeps the canonical form. -/
theorem Memory.write_wf (m : Memory) (a : Addr) (b : Byte) (h : m.wf) : (m.write a b).wf := by
  induction m with
  | nil => simp [Memory.write]
  | cons p m ih =>
    obtain ⟨k, v⟩ := p
    obtain ⟨hk, hm⟩ := List.pairwise_cons.mp h
    simp only [Memory.write]
    split
    · rename_i hlt
      refine List.pairwise_cons.mpr ⟨?_, h⟩
      intro q hq
      rcases List.mem_cons.mp hq with rfl | hq
      · exact hlt
      · exact lt_trans hlt (hk q hq)
    · split
      · rename_i heq
        subst heq
        exact List.pairwise_cons.mpr ⟨hk, hm⟩
      · refine List.pairwise_cons.mpr ⟨?_, ih hm⟩
        intro q hq
        rcases Memory.mem_write m a b q hq with hq | rfl
        · exact hk q hq
        · show k < a.id; omega

/-- Writing bytes keeps the canonical form. -/
theorem Memory.writeAll_wf (m : Memory) (cells : List (Addr × Byte)) (h : m.wf) : (m.writeAll cells).wf := by
  induction cells generalizing m with
  | nil => exact h
  | cons c cells ih => exact ih _ (Memory.write_wf m c.1 c.2 h)

@[simp] theorem Memory.writeAll_nil (m : Memory) : m.writeAll [] = m := rfl

/-- Writing bytes leaves every byte alone whose address is not listed. -/
theorem Memory.read_writeAll_other (m : Memory) (cells : List (Addr × Byte)) (a : Addr) (h : ∀ c ∈ cells, a ≠ c.1) :
    (m.writeAll cells).read a = m.read a := by
  induction cells generalizing m with
  | nil => rfl
  | cons c cells ih =>
    simp only [Memory.writeAll]
    rw [ih _ fun d hd => h d (List.mem_cons_of_mem c hd), Memory.read_write_other _ _ _ _ (h c List.mem_cons_self)]

/-- A written byte reads back as written unless its address is listed again later. -/
theorem Memory.read_writeAll_last (m : Memory) (pre post : List (Addr × Byte)) (a : Addr) (b : Byte)
    (h : ∀ c ∈ post, a ≠ c.1) : (m.writeAll (pre ++ (a, b) :: post)).read a = some b := by
  induction pre generalizing m with
  | nil => exact (Memory.read_writeAll_other _ _ _ h).trans (Memory.read_write_self m a b)
  | cons c pre ih => exact ih _

/-- The bytes of a store read back as written, each unless its address is that of a later byte too. -/
theorem Memory.read_writeAll_map (m : Memory) (f : Nat → Addr) (ks : List Nat) (bs : List Byte) (i : Nat)
    (hlen : ks.length = bs.length) (hi : i < ks.length)
    (h : ∀ j, i < j → (hj : j < ks.length) → f ks[i] ≠ f ks[j]) :
    (m.writeAll ((ks.map f).zip bs)).read (f ks[i]) = bs[i]? := by
  induction ks generalizing m bs i with
  | nil => simp at hi
  | cons k ks ih =>
    cases bs with
    | nil => simp at hlen
    | cons b bs =>
      cases i with
      | zero =>
        simp only [List.map_cons, List.zip_cons_cons, Memory.writeAll, List.getElem_cons_zero, List.getElem?_cons_zero]
        rw [Memory.read_writeAll_other]
        · exact Memory.read_write_self m (f k) b
        · intro c hc
          obtain ⟨j, hj, hjk⟩ := List.mem_iff_getElem.mp (List.mem_map.mp (List.of_mem_zip hc).1).choose_spec.1
          have hf := (List.mem_map.mp (List.of_mem_zip hc).1).choose_spec.2
          rw [← hf, ← hjk]
          exact h (j + 1) (by omega) (by simpa using hj)
      | succ i =>
        simp only [List.map_cons, List.zip_cons_cons, Memory.writeAll, List.getElem_cons_succ, List.getElem?_cons_succ]
        refine ih _ bs i (by simpa using hlen) (by simpa using hi) ?_
        intro j hij hj
        exact h (j + 1) (by omega) (by simpa using hj)

/-- A store leaves every byte alone whose address is not one of its own. -/
theorem Memory.read_writeAll_zip_other (m : Memory) (as : List Addr) (bs : List Byte) (a : Addr) (h : ∀ c ∈ as, a ≠ c) :
    (m.writeAll (as.zip bs)).read a = m.read a :=
  Memory.read_writeAll_other _ _ _ fun c hc => h c.1 (List.of_mem_zip (a := c.1) (b := c.2) hc).1

/-- Reading four bytes: either all four are written and the answer is their list, or the answer is the first address
that holds none. -/
theorem Memory.readAll_four (m : Memory) (a0 a1 a2 a3 : Addr) :
    m.readAll [a0, a1, a2, a3] =
      match m.read a0, m.read a1, m.read a2, m.read a3 with
      | some b0, some b1, some b2, some b3 => .ok [b0, b1, b2, b3]
      | none, _, _, _ => .error a0
      | some _, none, _, _ => .error a1
      | some _, some _, none, _ => .error a2
      | some _, some _, some _, none => .error a3 := by
  simp only [Memory.readAll]
  cases m.read a0 <;> cases m.read a1 <;> cases m.read a2 <;> cases m.read a3 <;> rfl

end Sys2Proof.Machine
end

