-- ==== Sys2Proof/Laws/State.lean ====
section
/-! SUPPORT. One lemma per field per named update of the state, so that no proof unfolds a record update. -/

namespace Sys2Proof.Machine

@[simp] theorem State.setCfg_cfg (s : State) (v : Vector Byte 8) : (s.setCfg v).cfg = v := rfl
@[simp] theorem State.setCfg_x (s : State) (v : Vector Byte 8) : (s.setCfg v).x = s.x := rfl
@[simp] theorem State.setCfg_pc (s : State) (v : Vector Byte 8) : (s.setCfg v).pc = s.pc := rfl
@[simp] theorem State.setCfg_priv (s : State) (v : Vector Byte 8) : (s.setCfg v).priv = s.priv := rfl
@[simp] theorem State.setCfg_mxl (s : State) (v : Vector Byte 8) : (s.setCfg v).mxl = s.mxl := rfl
@[simp] theorem State.setCfg_mem (s : State) (v : Vector Byte 8) : (s.setCfg v).mem = s.mem := rfl
@[simp] theorem State.setCfg_raised (s : State) (v : Vector Byte 8) : (s.setCfg v).raised = s.raised := rfl
@[simp] theorem State.setCfg_agenda (s : State) (v : Vector Byte 8) : (s.setCfg v).agenda = s.agenda := rfl
@[simp] theorem State.setCfg_draws (s : State) (v : Vector Byte 8) : (s.setCfg v).draws = s.draws := rfl
@[simp] theorem State.setCfg_params (s : State) (v : Vector Byte 8) : (s.setCfg v).params = s.params := rfl

@[simp] theorem State.setX_cfg (s : State) (v : Vector Reg 32) : (s.setX v).cfg = s.cfg := rfl
@[simp] theorem State.setX_x (s : State) (v : Vector Reg 32) : (s.setX v).x = v := rfl
@[simp] theorem State.setX_pc (s : State) (v : Vector Reg 32) : (s.setX v).pc = s.pc := rfl
@[simp] theorem State.setX_priv (s : State) (v : Vector Reg 32) : (s.setX v).priv = s.priv := rfl
@[simp] theorem State.setX_mxl (s : State) (v : Vector Reg 32) : (s.setX v).mxl = s.mxl := rfl
@[simp] theorem State.setX_mem (s : State) (v : Vector Reg 32) : (s.setX v).mem = s.mem := rfl
@[simp] theorem State.setX_raised (s : State) (v : Vector Reg 32) : (s.setX v).raised = s.raised := rfl
@[simp] theorem State.setX_agenda (s : State) (v : Vector Reg 32) : (s.setX v).agenda = s.agenda := rfl
@[simp] theorem State.setX_draws (s : State) (v : Vector Reg 32) : (s.setX v).draws = s.draws := rfl
@[simp] theorem State.setX_params (s : State) (v : Vector Reg 32) : (s.setX v).params = s.params := rfl

@[simp] theorem State.setPc_cfg (s : State) (v : Nat) : (s.setPc v).cfg = s.cfg := rfl
@[simp] theorem State.setPc_x (s : State) (v : Nat) : (s.setPc v).x = s.x := rfl
@[simp] theorem State.setPc_pc (s : State) (v : Nat) : (s.setPc v).pc = v := rfl
@[simp] theorem State.setPc_priv (s : State) (v : Nat) : (s.setPc v).priv = s.priv := rfl
@[simp] theorem State.setPc_mxl (s : State) (v : Nat) : (s.setPc v).mxl = s.mxl := rfl
@[simp] theorem State.setPc_mem (s : State) (v : Nat) : (s.setPc v).mem = s.mem := rfl
@[simp] theorem State.setPc_raised (s : State) (v : Nat) : (s.setPc v).raised = s.raised := rfl
@[simp] theorem State.setPc_agenda (s : State) (v : Nat) : (s.setPc v).agenda = s.agenda := rfl
@[simp] theorem State.setPc_draws (s : State) (v : Nat) : (s.setPc v).draws = s.draws := rfl
@[simp] theorem State.setPc_params (s : State) (v : Nat) : (s.setPc v).params = s.params := rfl

@[simp] theorem State.setPriv_cfg (s : State) (v : Priv) : (s.setPriv v).cfg = s.cfg := rfl
@[simp] theorem State.setPriv_x (s : State) (v : Priv) : (s.setPriv v).x = s.x := rfl
@[simp] theorem State.setPriv_pc (s : State) (v : Priv) : (s.setPriv v).pc = s.pc := rfl
@[simp] theorem State.setPriv_priv (s : State) (v : Priv) : (s.setPriv v).priv = v := rfl
@[simp] theorem State.setPriv_mxl (s : State) (v : Priv) : (s.setPriv v).mxl = s.mxl := rfl
@[simp] theorem State.setPriv_mem (s : State) (v : Priv) : (s.setPriv v).mem = s.mem := rfl
@[simp] theorem State.setPriv_raised (s : State) (v : Priv) : (s.setPriv v).raised = s.raised := rfl
@[simp] theorem State.setPriv_agenda (s : State) (v : Priv) : (s.setPriv v).agenda = s.agenda := rfl
@[simp] theorem State.setPriv_draws (s : State) (v : Priv) : (s.setPriv v).draws = s.draws := rfl
@[simp] theorem State.setPriv_params (s : State) (v : Priv) : (s.setPriv v).params = s.params := rfl

@[simp] theorem State.setMxl_cfg (s : State) (v : Int) : (s.setMxl v).cfg = s.cfg := rfl
@[simp] theorem State.setMxl_x (s : State) (v : Int) : (s.setMxl v).x = s.x := rfl
@[simp] theorem State.setMxl_pc (s : State) (v : Int) : (s.setMxl v).pc = s.pc := rfl
@[simp] theorem State.setMxl_priv (s : State) (v : Int) : (s.setMxl v).priv = s.priv := rfl
@[simp] theorem State.setMxl_mxl (s : State) (v : Int) : (s.setMxl v).mxl = v := rfl
@[simp] theorem State.setMxl_mem (s : State) (v : Int) : (s.setMxl v).mem = s.mem := rfl
@[simp] theorem State.setMxl_raised (s : State) (v : Int) : (s.setMxl v).raised = s.raised := rfl
@[simp] theorem State.setMxl_agenda (s : State) (v : Int) : (s.setMxl v).agenda = s.agenda := rfl
@[simp] theorem State.setMxl_draws (s : State) (v : Int) : (s.setMxl v).draws = s.draws := rfl
@[simp] theorem State.setMxl_params (s : State) (v : Int) : (s.setMxl v).params = s.params := rfl

@[simp] theorem State.setMem_cfg (s : State) (v : Memory) : (s.setMem v).cfg = s.cfg := rfl
@[simp] theorem State.setMem_x (s : State) (v : Memory) : (s.setMem v).x = s.x := rfl
@[simp] theorem State.setMem_pc (s : State) (v : Memory) : (s.setMem v).pc = s.pc := rfl
@[simp] theorem State.setMem_priv (s : State) (v : Memory) : (s.setMem v).priv = s.priv := rfl
@[simp] theorem State.setMem_mxl (s : State) (v : Memory) : (s.setMem v).mxl = s.mxl := rfl
@[simp] theorem State.setMem_mem (s : State) (v : Memory) : (s.setMem v).mem = v := rfl
@[simp] theorem State.setMem_raised (s : State) (v : Memory) : (s.setMem v).raised = s.raised := rfl
@[simp] theorem State.setMem_agenda (s : State) (v : Memory) : (s.setMem v).agenda = s.agenda := rfl
@[simp] theorem State.setMem_draws (s : State) (v : Memory) : (s.setMem v).draws = s.draws := rfl
@[simp] theorem State.setMem_params (s : State) (v : Memory) : (s.setMem v).params = s.params := rfl

@[simp] theorem State.setRaised_cfg (s : State) (v : Option Exception) : (s.setRaised v).cfg = s.cfg := rfl
@[simp] theorem State.setRaised_x (s : State) (v : Option Exception) : (s.setRaised v).x = s.x := rfl
@[simp] theorem State.setRaised_pc (s : State) (v : Option Exception) : (s.setRaised v).pc = s.pc := rfl
@[simp] theorem State.setRaised_priv (s : State) (v : Option Exception) : (s.setRaised v).priv = s.priv := rfl
@[simp] theorem State.setRaised_mxl (s : State) (v : Option Exception) : (s.setRaised v).mxl = s.mxl := rfl
@[simp] theorem State.setRaised_mem (s : State) (v : Option Exception) : (s.setRaised v).mem = s.mem := rfl
@[simp] theorem State.setRaised_raised (s : State) (v : Option Exception) : (s.setRaised v).raised = v := rfl
@[simp] theorem State.setRaised_agenda (s : State) (v : Option Exception) : (s.setRaised v).agenda = s.agenda := rfl
@[simp] theorem State.setRaised_draws (s : State) (v : Option Exception) : (s.setRaised v).draws = s.draws := rfl
@[simp] theorem State.setRaised_params (s : State) (v : Option Exception) : (s.setRaised v).params = s.params := rfl

@[simp] theorem State.setAgenda_cfg (s : State) (v : List Move) : (s.setAgenda v).cfg = s.cfg := rfl
@[simp] theorem State.setAgenda_x (s : State) (v : List Move) : (s.setAgenda v).x = s.x := rfl
@[simp] theorem State.setAgenda_pc (s : State) (v : List Move) : (s.setAgenda v).pc = s.pc := rfl
@[simp] theorem State.setAgenda_priv (s : State) (v : List Move) : (s.setAgenda v).priv = s.priv := rfl
@[simp] theorem State.setAgenda_mxl (s : State) (v : List Move) : (s.setAgenda v).mxl = s.mxl := rfl
@[simp] theorem State.setAgenda_mem (s : State) (v : List Move) : (s.setAgenda v).mem = s.mem := rfl
@[simp] theorem State.setAgenda_raised (s : State) (v : List Move) : (s.setAgenda v).raised = s.raised := rfl
@[simp] theorem State.setAgenda_agenda (s : State) (v : List Move) : (s.setAgenda v).agenda = v := rfl
@[simp] theorem State.setAgenda_draws (s : State) (v : List Move) : (s.setAgenda v).draws = s.draws := rfl
@[simp] theorem State.setAgenda_params (s : State) (v : List Move) : (s.setAgenda v).params = s.params := rfl

@[simp] theorem State.setDraws_cfg (s : State) (v : Nat) : (s.setDraws v).cfg = s.cfg := rfl
@[simp] theorem State.setDraws_x (s : State) (v : Nat) : (s.setDraws v).x = s.x := rfl
@[simp] theorem State.setDraws_pc (s : State) (v : Nat) : (s.setDraws v).pc = s.pc := rfl
@[simp] theorem State.setDraws_priv (s : State) (v : Nat) : (s.setDraws v).priv = s.priv := rfl
@[simp] theorem State.setDraws_mxl (s : State) (v : Nat) : (s.setDraws v).mxl = s.mxl := rfl
@[simp] theorem State.setDraws_mem (s : State) (v : Nat) : (s.setDraws v).mem = s.mem := rfl
@[simp] theorem State.setDraws_raised (s : State) (v : Nat) : (s.setDraws v).raised = s.raised := rfl
@[simp] theorem State.setDraws_agenda (s : State) (v : Nat) : (s.setDraws v).agenda = s.agenda := rfl
@[simp] theorem State.setDraws_draws (s : State) (v : Nat) : (s.setDraws v).draws = v := rfl
@[simp] theorem State.setDraws_params (s : State) (v : Nat) : (s.setDraws v).params = s.params := rfl

/-- Putting back what stands there changes nothing. -/
theorem State.setCfg_self (s : State) : s.setCfg s.cfg = s := rfl

theorem State.setMem_self (s : State) : s.setMem s.mem = s := rfl

theorem State.setAgenda_self (s : State) : s.setAgenda s.agenda = s := rfl

end Sys2Proof.Machine
end

