-- ==== Sys2Proof/Laws/Ops.lean ====
section
/-! SUPPORT. What the shared operations leave unchanged, and everything each of them can answer. -/

namespace Sys2Proof.Machine

/-! ## Registers -/

@[simp] theorem readReg_zero (len : Len) (s : State) : readReg len 0 s = 0 := rfl

@[simp] theorem writeReg_zero (len : Len) (v : Word) (s : State) : writeReg len 0 v s = s := rfl

@[simp] theorem writeReg_cfg (len : Len) (r : Nat) (v : Word) (s : State) : (writeReg len r v s).cfg = s.cfg := by
  unfold writeReg; split <;> cases len <;> rfl

@[simp] theorem writeReg_pc (len : Len) (r : Nat) (v : Word) (s : State) : (writeReg len r v s).pc = s.pc := by
  unfold writeReg; split <;> cases len <;> rfl

@[simp] theorem writeReg_priv (len : Len) (r : Nat) (v : Word) (s : State) : (writeReg len r v s).priv = s.priv := by
  unfold writeReg; split <;> cases len <;> rfl

@[simp] theorem writeReg_mxl (len : Len) (r : Nat) (v : Word) (s : State) : (writeReg len r v s).mxl = s.mxl := by
  unfold writeReg; split <;> cases len <;> rfl

@[simp] theorem writeReg_mem (len : Len) (r : Nat) (v : Word) (s : State) : (writeReg len r v s).mem = s.mem := by
  unfold writeReg; split <;> cases len <;> rfl

@[simp] theorem writeReg_raised (len : Len) (r : Nat) (v : Word) (s : State) :
    (writeReg len r v s).raised = s.raised := by
  unfold writeReg; split <;> cases len <;> rfl

@[simp] theorem writeReg_agenda (len : Len) (r : Nat) (v : Word) (s : State) :
    (writeReg len r v s).agenda = s.agenda := by
  unfold writeReg; split <;> cases len <;> rfl

@[simp] theorem writeReg_params (len : Len) (r : Nat) (v : Word) (s : State) :
    (writeReg len r v s).params = s.params := by
  unfold writeReg; split <;> cases len <;> rfl

/-- The register file after a write: one register replaced, none if `r` is 0. -/
theorem writeReg_x (len : Len) (r : Nat) (v : Word) (s : State) :
    (writeReg len r v s).x =
      if r = 0 then s.x
      else s.x.setIfInBounds r ⟨match len with
        | .w32 => Config.freeUpperHalf s.draws
        | .w64 => v.extractLsb' 32 32, v.extractLsb' 0 32⟩ := by
  unfold writeReg; split <;> cases len <;> rfl

/-- A register write leaves every other register alone, and all of them when the destination is x[0]. -/
theorem writeReg_x_other (len : Len) (r : Nat) (v : Word) (s : State) (q : Fin 32) (h : q.val ≠ r ∨ r = 0) :
    (writeReg len r v s).x[q] = s.x[q] := by
  by_cases h0 : r = 0
  · subst h0; rfl
  · have hq : r ≠ q.val := by tauto
    cases len <;> simp [writeReg, h0, hq]

/-- The written register holds the value: both halves in the 64-bit format, the lower half in the 32-bit one. -/
theorem writeReg_x_self (len : Len) (v : Word) (s : State) (q : Fin 32) (h : q.val ≠ 0) :
    (writeReg len q.val v s).x[q] = ⟨match len with
      | .w32 => Config.freeUpperHalf s.draws
      | .w64 => v.extractLsb' 32 32, v.extractLsb' 0 32⟩ := by
  cases len <;> simp [writeReg, h]

/-! ## The register pmpcfg0 -/

@[simp] theorem writeCsr_x (len : Len) (v : Word) (s : State) : (writeCsr len v s).x = s.x := rfl
@[simp] theorem writeCsr_pc (len : Len) (v : Word) (s : State) : (writeCsr len v s).pc = s.pc := rfl
@[simp] theorem writeCsr_priv (len : Len) (v : Word) (s : State) : (writeCsr len v s).priv = s.priv := rfl
@[simp] theorem writeCsr_mxl (len : Len) (v : Word) (s : State) : (writeCsr len v s).mxl = s.mxl := rfl
@[simp] theorem writeCsr_mem (len : Len) (v : Word) (s : State) : (writeCsr len v s).mem = s.mem := rfl
@[simp] theorem writeCsr_raised (len : Len) (v : Word) (s : State) : (writeCsr len v s).raised = s.raised := rfl
@[simp] theorem writeCsr_agenda (len : Len) (v : Word) (s : State) : (writeCsr len v s).agenda = s.agenda := rfl
@[simp] theorem writeCsr_draws (len : Len) (v : Word) (s : State) : (writeCsr len v s).draws = s.draws := rfl
@[simp] theorem writeCsr_params (len : Len) (v : Word) (s : State) : (writeCsr len v s).params = s.params := rfl

/-- One field after a write. -/
theorem writeCsr_field (len : Len) (v : Word) (s : State) (n : Fin 8) :
    (writeCsr len v s).cfg[n] =
      if n.val < fieldCount len then storeField s.params n s.cfg[n] (fieldOf v n) else s.cfg[n] := by
  simp [writeCsr]

/-! ## Instructions -/

@[simp] theorem complete_cfg (len : Len) (rd : Nat) (t : Word) (s : State) : (complete len rd t s).cfg = s.cfg := by
  simp [complete]

@[simp] theorem complete_x (len : Len) (rd : Nat) (t : Word) (s : State) :
    (complete len rd t s).x = (writeReg len rd t s).x := rfl

@[simp] theorem complete_pc (len : Len) (rd : Nat) (t : Word) (s : State) : (complete len rd t s).pc = s.pc + 4 := rfl

@[simp] theorem complete_priv (len : Len) (rd : Nat) (t : Word) (s : State) :
    (complete len rd t s).priv = s.priv := by
  simp [complete]

@[simp] theorem complete_mxl (len : Len) (rd : Nat) (t : Word) (s : State) : (complete len rd t s).mxl = s.mxl := by
  simp [complete]

@[simp] theorem complete_mem (len : Len) (rd : Nat) (t : Word) (s : State) : (complete len rd t s).mem = s.mem := by
  simp [complete]

@[simp] theorem complete_raised (len : Len) (rd : Nat) (t : Word) (s : State) :
    (complete len rd t s).raised = s.raised := by
  simp [complete]

@[simp] theorem complete_agenda (len : Len) (rd : Nat) (t : Word) (s : State) :
    (complete len rd t s).agenda = s.agenda := by
  simp [complete]

@[simp] theorem complete_params (len : Len) (rd : Nat) (t : Word) (s : State) :
    (complete len rd t s).params = s.params := by
  simp [complete]

/-- In M-mode, where the register has a length, an access has its effect. -/
theorem csrAccess_machine (i : Instr) (s : State) (e : Len → State) (len : Len) (hp : s.priv = .m)
    (hl : lenOfMxl s.mxl = some len) : csrAccess i s e = .next (e len) := by
  simp [csrAccess, hp, hl]

theorem csrAccess_other (i : Instr) (s : State) (e : Len → State) (hp : s.priv ≠ .m) :
    csrAccess i s e = .next (s.setRaised (some (.illegalInstruction (encode i)))) := by
  simp [csrAccess, hp, raiseException]

theorem csrAccess_refused (i : Instr) (s : State) (e : Len → State) (hp : s.priv = .m)
    (hl : lenOfMxl s.mxl = none) : csrAccess i s e = .refused (.mxlWithoutLength s.mxl) := by
  simp [csrAccess, hp, hl]

/-- Every next state of an access: its effect in M-mode, or the raised exception. -/
theorem csrAccess_next (i : Instr) (s t : State) (e : Len → State) (h : csrAccess i s e = .next t) :
    (s.priv = .m ∧ ∃ len, lenOfMxl s.mxl = some len ∧ t = e len) ∨
      (s.priv ≠ .m ∧ t = s.setRaised (some (.illegalInstruction (encode i)))) := by
  unfold csrAccess at h
  split at h
  · rename_i hp
    split at h
    · rename_i len hl
      exact .inl ⟨hp, len, hl, by cases h; rfl⟩
    · cases h
  · rename_i hp
    exact .inr ⟨hp, by cases h; rfl⟩

/-- The general register an instruction writes. -/
def destination : Instr → Nat
  | .csrrw rd _ => rd
  | .csrrs rd _ => rd
  | .csrrc rd _ => rd
  | .csrrwi rd _ => rd
  | .csrrsi rd _ => rd
  | .csrrci rd _ => rd

/-- Every next state of an instruction: in M-mode its register access completed, with no write or one write of some
value; in any other mode the raised exception. -/
theorem exec_next (i : Instr) (s t : State) (h : exec i s = .next t) :
    (s.priv = .m ∧ ∃ len u, lenOfMxl s.mxl = some len ∧ (u = s ∨ ∃ v, u = writeCsr len v s) ∧
        t = complete len (destination i) (readCsr len s) u) ∨
      (s.priv ≠ .m ∧ t = s.setRaised (some (.illegalInstruction (encode i)))) := by
  cases i with
  | csrrw rd rs1 =>
    rcases csrAccess_next _ _ _ _ h with ⟨hp, len, hl, rfl⟩ | h
    · exact .inl ⟨hp, len, _, hl, .inr ⟨_, rfl⟩, rfl⟩
    · exact .inr h
  | csrrs rd rs1 =>
    rcases csrAccess_next _ _ _ _ h with ⟨hp, len, hl, rfl⟩ | h
    · refine .inl ⟨hp, len, _, hl, ?_, rfl⟩
      split
      · exact .inl rfl
      · exact .inr ⟨_, rfl⟩
    · exact .inr h
  | csrrc rd rs1 =>
    rcases csrAccess_next _ _ _ _ h with ⟨hp, len, hl, rfl⟩ | h
    · refine .inl ⟨hp, len, _, hl, ?_, rfl⟩
      split
      · exact .inl rfl
      · exact .inr ⟨_, rfl⟩
    · exact .inr h
  | csrrwi rd uimm =>
    rcases csrAccess_next _ _ _ _ h with ⟨hp, len, hl, rfl⟩ | h
    · exact .inl ⟨hp, len, _, hl, .inr ⟨_, rfl⟩, rfl⟩
    · exact .inr h
  | csrrsi rd uimm =>
    rcases csrAccess_next _ _ _ _ h with ⟨hp, len, hl, rfl⟩ | h
    · refine .inl ⟨hp, len, _, hl, ?_, rfl⟩
      split
      · exact .inl rfl
      · exact .inr ⟨_, rfl⟩
    · exact .inr h
  | csrrci rd uimm =>
    rcases csrAccess_next _ _ _ _ h with ⟨hp, len, hl, rfl⟩ | h
    · refine .inl ⟨hp, len, _, hl, ?_, rfl⟩
      split
      · exact .inl rfl
      · exact .inr ⟨_, rfl⟩
    · exact .inr h

/-! ## Accesses and moves -/

/-- The bytes a permitted access leaves in memory: its own at their addresses, each unless a later one has the same
address. -/
theorem storedCells_read (p : Params) (a : Access) (m : Memory) (k : Nat) (hk : k < (storedBytes a.kind).length)
    (h : ∀ j, k < j → j < (storedBytes a.kind).length → byteAt p a.addr j ≠ byteAt p a.addr k) :
    (m.writeAll (storedCells p a)).read (byteAt p a.addr k) = (storedBytes a.kind)[k]? := by
  have := Memory.read_writeAll_map m (byteAt p a.addr) (List.range (storedBytes a.kind).length) (storedBytes a.kind) k
    (by simp) (by simpa using hk) (fun j hkj hj => by simpa using (h j hkj (by simpa using hj)).symm)
  simpa [storedCells, bytesFrom] using this

/-- A permitted access leaves every byte alone whose address is not one of the bytes it stores. -/
theorem storedCells_read_other (p : Params) (a : Access) (m : Memory) (b : Addr)
    (h : ∀ k, k < (storedBytes a.kind).length → b ≠ byteAt p a.addr k) :
    (m.writeAll (storedCells p a)).read b = m.read b :=
  Memory.read_writeAll_zip_other _ _ _ _ fun c hc => by
    obtain ⟨k, hk, rfl⟩ := List.mem_map.mp hc
    exact h k (List.mem_range.mp hk)

/-- Every next state of a memory access of the enclosing processor. -/
theorem performAccess_next (a : Access) (s t : State) (h : performAccess a s = .next t) :
    (checkAccess s (accessClass a.kind) a.priv a.addr (accessSize a.kind) = .permitted ∧
        t = s.setMem (s.mem.writeAll (storedCells s.params a))) ∨
      (checkAccess s (accessClass a.kind) a.priv a.addr (accessSize a.kind) = .faults ∧
        t = s.setRaised (some (.accessFault (accessClass a.kind)))) := by
  unfold performAccess at h
  split at h
  · rename_i hc; exact .inl ⟨hc, by cases h; rfl⟩
  · rename_i hc; exact .inr ⟨hc, by cases h; rfl⟩
  · cases h

theorem whenDelivered_none (s : State) (o : Host.Outcome State Fault Refusal) (h : s.raised = none) :
    whenDelivered s o = o := by
  simp [whenDelivered, h]

theorem whenDelivered_some (s : State) (o : Host.Outcome State Fault Refusal) (e : Exception)
    (h : s.raised = some e) : whenDelivered s o = .fault (.undelivered e) := by
  simp [whenDelivered, h]

theorem whenDelivered_next (s t : State) (o : Host.Outcome State Fault Refusal) (h : whenDelivered s o = .next t) :
    s.raised = none ∧ o = .next t := by
  unfold whenDelivered at h
  split at h
  · rename_i hr; exact ⟨hr, h⟩
  · cases h

/-- Every next state of running the instruction at the pc: the failed check of its fetch, or the instruction's. -/
theorem runInstruction_next (s t : State) (h : runInstruction s = .next t) :
    (checkAccess s .fetch s.priv s.insnAddr 4 = .faults ∧ t = s.setRaised (some (.accessFault .fetch))) ∨
      (checkAccess s .fetch s.priv s.insnAddr 4 = .permitted ∧
        ∃ bytes i, s.mem.readAll (bytesFrom s.params s.insnAddr 4) = .ok bytes ∧ decodeBytes bytes = .instr i ∧ exec i s = .next t) := by
  unfold runInstruction at h
  split at h
  · rename_i hc; exact .inl ⟨hc, by cases h; rfl⟩
  · cases h
  · rename_i hc
    split at h
    · cases h
    · rename_i bytes hb
      split at h
      · cases h
      · rename_i i hd
        exact .inr ⟨hc, bytes, i, hb, hd, h⟩

/-- Every next state of a move. -/
theorem perform_next (m : Move) (s t : State) (h : perform m s = .next t) :
    (m = .instruction ∧ s.raised = none ∧ runInstruction s = .next t) ∨
      (∃ a, m = .access a ∧ s.raised = none ∧ performAccess a s = .next t) ∨
      (∃ target mode, m = .trapEntry target mode ∧ t = enterTrap target mode s) ∨
      (∃ target mode, m = .trapReturn target mode ∧ s.raised = none ∧ t = returnFromTrap target mode s) ∨
      (∃ mxl, m = .setMxl mxl ∧ s.raised = none ∧ t = s.setMxl mxl) ∨
      (∃ d, m = .reset d ∧ t = resetBy d s) := by
  cases m with
  | instruction =>
    obtain ⟨hr, h⟩ := whenDelivered_next _ _ _ h
    exact .inl ⟨rfl, hr, h⟩
  | access a =>
    obtain ⟨hr, h⟩ := whenDelivered_next _ _ _ h
    exact .inr (.inl ⟨a, rfl, hr, h⟩)
  | trapEntry target mode =>
    cases h
    exact .inr (.inr (.inl ⟨target, mode, rfl, rfl⟩))
  | trapReturn target mode =>
    obtain ⟨hr, h⟩ := whenDelivered_next _ _ _ h
    cases h
    exact .inr (.inr (.inr (.inl ⟨target, mode, rfl, hr, rfl⟩)))
  | setMxl mxl =>
    obtain ⟨hr, h⟩ := whenDelivered_next _ _ _ h
    cases h
    exact .inr (.inr (.inr (.inr (.inl ⟨mxl, rfl, hr, rfl⟩))))
  | reset d =>
    cases h
    exact .inr (.inr (.inr (.inr (.inr ⟨d, rfl, rfl⟩))))

end Sys2Proof.Machine
end

