-- ==== Sys2Proof/Laws/PerInstr.lean ====
section
/-! SUPPORT. Statements made instruction by instruction. `EncodedRow` says that an instruction's word matches its own
row of the opcode map (30_encoding.md R97), whatever its operands. -/

namespace Sys2Proof.Laws

/-- The `match` column of an instruction's row of 30_encoding.md R97. -/
def EncodedRow.matchOf : Instr → Insn
  | .csrrw _ _ => 0x3A001073
  | .csrrs _ _ => 0x3A002073
  | .csrrc _ _ => 0x3A003073
  | .csrrwi _ _ => 0x3A005073
  | .csrrsi _ _ => 0x3A006073
  | .csrrci _ _ => 0x3A007073

/-- The word of an instruction, under the mask of its row, is the row's match. -/
def EncodedRow.Statement (i : Instr) : Prop := encode i &&& 0xFFF0707F = EncodedRow.matchOf i

/-- The mask of R97 keeps the fixed fields of the format and clears both operand fields. -/
theorem EncodedRow.formatI_masked (a d : Nat) (f : BitVec 3) :
    formatI a f d &&& 0xFFF0707F = formatI 0 f 0 &&& 0xFFF0707F := by
  unfold formatI
  generalize BitVec.ofNat 5 a = x
  generalize BitVec.ofNat 5 d = y
  ext k hk
  simp only [BitVec.getElem_and, BitVec.getElem_append]
  interval_cases k <;> simp

theorem EncodedRow.csrrw (rd rs1 : Nat) : EncodedRow.Statement (.csrrw rd rs1) :=
  (EncodedRow.formatI_masked rs1 rd 1).trans (show formatI 0 1 0 &&& 0xFFF0707F = (0x3A001073 : Insn) by decide)

theorem EncodedRow.csrrs (rd rs1 : Nat) : EncodedRow.Statement (.csrrs rd rs1) :=
  (EncodedRow.formatI_masked rs1 rd 2).trans (show formatI 0 2 0 &&& 0xFFF0707F = (0x3A002073 : Insn) by decide)

theorem EncodedRow.csrrc (rd rs1 : Nat) : EncodedRow.Statement (.csrrc rd rs1) :=
  (EncodedRow.formatI_masked rs1 rd 3).trans (show formatI 0 3 0 &&& 0xFFF0707F = (0x3A003073 : Insn) by decide)

theorem EncodedRow.csrrwi (rd uimm : Nat) : EncodedRow.Statement (.csrrwi rd uimm) :=
  (EncodedRow.formatI_masked uimm rd 5).trans (show formatI 0 5 0 &&& 0xFFF0707F = (0x3A005073 : Insn) by decide)

theorem EncodedRow.csrrsi (rd uimm : Nat) : EncodedRow.Statement (.csrrsi rd uimm) :=
  (EncodedRow.formatI_masked uimm rd 6).trans (show formatI 0 6 0 &&& 0xFFF0707F = (0x3A006073 : Insn) by decide)

theorem EncodedRow.csrrci (rd uimm : Nat) : EncodedRow.Statement (.csrrci rd uimm) :=
  (EncodedRow.formatI_masked uimm rd 7).trans (show formatI 0 7 0 &&& 0xFFF0707F = (0x3A007073 : Insn) by decide)

end Sys2Proof.Laws
end

