-- ==== Sys2Proof/Laws/Step.lean ====
section
/-! SUPPORT. What a step can do: it carries out the oldest pending move, an instruction if none is pending. -/

namespace Sys2Proof.Machine

theorem step_of_empty (s : State) (h : s.agenda = []) : step s = perform .instruction s := by
  simp [step, h]

theorem step_of_move (s : State) (m : Move) (rest : List Move) (h : s.agenda = m :: rest) :
    step s = perform m (s.setAgenda rest) := by
  simp [step, h]

/-- Every step carries out one move, `instruction` where the agenda is empty, in the state whose agenda has lost it. -/
theorem step_perform (s : State) :
    step s = perform (s.agenda.head?.getD .instruction) (s.setAgenda s.agenda.tail) := by
  cases h : s.agenda with
  | nil =>
    show step s = perform .instruction (s.setAgenda [])
    rw [step_of_empty s h, ← h, State.setAgenda_self]
  | cons m rest => rw [step_of_move s m rest h]; simp

theorem instructionNext_raised (s : State) (h : s.instructionNext = true) : s.raised = none := by
  simp only [State.instructionNext, Bool.and_eq_true, Option.isNone_iff_eq_none] at h
  exact h.1

/-- When an instruction is next, the step runs the instruction at the pc. -/
theorem step_of_instructionNext (s : State) (h : s.instructionNext = true) : step s = runInstruction s.dropMove := by
  have hr := instructionNext_raised s h
  simp only [State.instructionNext, Bool.and_eq_true, beq_iff_eq] at h
  rw [step_perform, h.2]
  exact whenDelivered_none _ _ hr

/-- The four addresses an instruction is fetched from. -/
theorem bytesFrom_four (s : State) :
    bytesFrom s.params s.insnAddr 4 = [s.insnByte 0, s.insnByte 1, s.insnByte 2, s.insnByte 3] := rfl

/-- The bytes of a written word read as a list that decodes as the word does. -/
theorem readAll_of_wordAtPc (s : State) (w : Insn) (h : s.wordAtPc = some w) :
    ∃ bytes, s.mem.readAll (bytesFrom s.params s.insnAddr 4) = .ok bytes ∧ decodeBytes bytes = decode w := by
  unfold State.wordAtPc at h
  rw [bytesFrom_four, Memory.readAll_four]
  split at h
  · rename_i b0 b1 b2 b3 h0 h1 h2 h3
    cases h
    exact ⟨[b0, b1, b2, b3], by rw [h0, h1, h2, h3], rfl⟩
  · cases h

/-- Bytes that can be read are those of the word at the pc. -/
theorem wordAtPc_of_readAll (s : State) (bytes : List Byte) (h : s.mem.readAll (bytesFrom s.params s.insnAddr 4) = .ok bytes) :
    ∃ w, s.wordAtPc = some w ∧ decodeBytes bytes = decode w := by
  cases hw : s.wordAtPc with
  | none =>
    unfold State.wordAtPc at hw
    rw [bytesFrom_four, Memory.readAll_four] at h
    split at h <;> simp_all
  | some w =>
    obtain ⟨bytes', h', hd⟩ := readAll_of_wordAtPc s w hw
    have : bytes' = bytes := by
      have := h'.symm.trans h
      injection this
    exact ⟨w, rfl, this ▸ hd⟩

/-- Every next state of a step: a failed fetch, an instruction that ran, or another move of the agenda. -/
theorem step_next (s t : State) (h : step s = .next t) :
    (s.instructionNext = true ∧ checkAccess s .fetch s.priv s.insnAddr 4 = .faults ∧
        t = s.dropMove.setRaised (some (.accessFault .fetch))) ∨
      (s.instructionNext = true ∧ checkAccess s .fetch s.priv s.insnAddr 4 = .permitted ∧
        ∃ w i, s.wordAtPc = some w ∧ decode w = .instr i ∧ exec i s.dropMove = .next t) ∨
      (∃ a, s.agenda.head? = some (.access a) ∧ s.raised = none ∧ performAccess a s.dropMove = .next t) ∨
      (∃ target mode, s.agenda.head? = some (.trapEntry target mode) ∧ t = enterTrap target mode s.dropMove) ∨
      (∃ target mode, s.agenda.head? = some (.trapReturn target mode) ∧ s.raised = none ∧
        t = returnFromTrap target mode s.dropMove) ∨
      (∃ mxl, s.agenda.head? = some (.setMxl mxl) ∧ s.raised = none ∧ t = s.dropMove.setMxl mxl) ∨
      (∃ d, s.agenda.head? = some (.reset d) ∧ t = resetBy d s.dropMove) := by
  rw [step_perform] at h
  have head : ∀ m, s.agenda.head?.getD .instruction = m → m ≠ .instruction → s.agenda.head? = some m := by
    intro m hm hne
    cases hh : s.agenda.head? with
    | none => rw [hh] at hm; exact absurd hm.symm hne
    | some x => rw [hh] at hm; exact congrArg some hm
  rcases perform_next _ _ _ h with ⟨hm, hr, h⟩ | ⟨a, hm, hr, h⟩ | ⟨target, mode, hm, h⟩ | ⟨target, mode, hm, hr, h⟩ |
    ⟨mxl, hm, hr, h⟩ | ⟨d, hm, h⟩
  · have hr' : s.raised = none := hr
    have hn : s.instructionNext = true := by simp [State.instructionNext, hr', hm]
    rcases runInstruction_next _ _ h with ⟨hc, ht⟩ | ⟨hc, bytes, i, hb, hd, he⟩
    · exact .inl ⟨hn, hc, ht⟩
    · obtain ⟨w, hw, hd'⟩ := wordAtPc_of_readAll s bytes hb
      exact .inr (.inl ⟨hn, hc, w, i, hw, hd' ▸ hd, he⟩)
  · exact .inr (.inr (.inl ⟨a, head _ hm (by simp), hr, h⟩))
  · exact .inr (.inr (.inr (.inl ⟨target, mode, head _ hm (by simp), h⟩)))
  · exact .inr (.inr (.inr (.inr (.inl ⟨target, mode, head _ hm (by simp), hr, h⟩))))
  · exact .inr (.inr (.inr (.inr (.inr (.inl ⟨mxl, head _ hm (by simp), hr, h⟩)))))
  · exact .inr (.inr (.inr (.inr (.inr (.inr ⟨d, head _ hm (by simp), h⟩)))))

end Sys2Proof.Machine
end

