-- ==== Sys2Proof/Tests/Slice0.lean ====
section
/-! SUPPORT. Tests: the spec's own vectors (95_test_vectors.md), ill-formed terms, and one witness per statement that has
hypotheses. Expected values are the spec's. -/

namespace Sys2Proof.Tests

open Sys2Proof.Machine

/-! ## Well-formedness and decoding -/

theorem test_wf_refuses_rd : (Instr.csrrw 32 0).wf = false ∧ (Instr.csrrwi 32 0).wf = false := by decide
theorem test_wf_refuses_rs1 : (Instr.csrrs 0 32).wf = false ∧ (Instr.csrrc 0 32).wf = false := by decide
theorem test_wf_refuses_uimm : (Instr.csrrsi 0 32).wf = false ∧ (Instr.csrrci 0 32).wf = false := by decide
theorem test_wf_accepts_limits : (Instr.csrrc 31 31).wf = true ∧ (Instr.csrrci 31 31).wf = true := by decide

/-- 95 K1, written out as 0x3a0, rs1 = 5, 001, rd = 6, 1110011. -/
theorem test_decode_csrrw : decode (0b001110100000_00101_001_00110_1110011 : Insn) = .instr (.csrrw 6 5) := by decide
/-- 95 K4. -/
theorem test_decode_csrrs : decode (0b001110100000_00101_010_00000_1110011 : Insn) = .instr (.csrrs 0 5) := by decide
/-- 95 K5. -/
theorem test_decode_csrrc : decode (0b001110100000_01011_011_01010_1110011 : Insn) = .instr (.csrrc 10 11) := by decide
/-- 95 K7. -/
theorem test_decode_csrrwi : decode (0b001110100000_01111_101_00000_1110011 : Insn) = .instr (.csrrwi 0 15) := by decide
/-- 95 K8. -/
theorem test_decode_csrrsi : decode (0b001110100000_11010_110_00111_1110011 : Insn) = .instr (.csrrsi 7 26) := by decide
/-- 95 K10. -/
theorem test_decode_csrrci : decode (0b001110100000_00001_111_01001_1110011 : Insn) = .instr (.csrrci 9 1) := by decide
/-- 95 K11: funct3 000. -/
theorem test_decode_other_funct3 : decode 0x3A000073 = .rejected .otherFunct3 := by decide
/-- 95 K12: csr = 0x3a1. -/
theorem test_decode_other_csr : decode 0x3A101073 = .rejected .otherCsr := by decide
theorem test_decode_other_opcode : decode 0x3A001033 = .rejected .otherOpcode := by decide
theorem test_decode_truncated : decodeBytes [0x73, 0x93, 0x02] = .rejected .truncated := by decide
theorem test_decode_table_word : decodeTableWord 32 0x3A029373 = some (.csrrw 6 5) := by decide
theorem test_encode_csrrw : encode (.csrrw 6 5) = 0x3A029373 ∧ encode (.csrrci 9 1) = 0x3A00F4F3 := by decide

/-! ## The field write (95_test_vectors.md 2.1: granularity, old, new, result) -/

theorem test_writeField_V1_to_V11 :
    ∀ r ∈ ([(0, 0x00, 0x1F, 0x1F), (2, 0x00, 0x0F, 0x0F), (0, 0x00, 0x9F, 0x9F), (0, 0x9F, 0x00, 0x9F),
      (0, 0x80, 0x07, 0x80), (0, 0x00, 0x02, 0x00), (0, 0x00, 0x06, 0x00), (0, 0x00, 0x0A, 0x00),
      (0, 0x07, 0x06, 0x07), (0, 0x07, 0x04, 0x04), (0, 0x00, 0x10, 0x10)] : List (Int × Byte × Byte × Byte)),
      writeField r.1 r.2.1 r.2.2.1 = r.2.2.2 := by decide

theorem test_writeField_V12_to_V22 :
    ∀ r ∈ ([(1, 0x00, 0x10, 0x10), (2, 0x00, 0x10, 0x00), (12, 0x00, 0x17, 0x00), (2, 0x1F, 0x18, 0x18),
      (2, 0x00, 0x92, 0x00), (0, 0x00, 0x60, 0x00), (0, 0x00, 0xFF, 0x9F), (0, 0x00, 0x7F, 0x1F),
      (0, 0x00, 0xE5, 0x85), (0, 0x0F, 0x0F, 0x0F), (0, 0x00, 0x80, 0x80)] : List (Int × Byte × Byte × Byte)),
      writeField r.1 r.2.1 r.2.2.1 = r.2.2.2 := by decide

theorem test_writeField_V23_to_V33 :
    ∀ r ∈ ([(0, 0x1B, 0x9B, 0x9B), (2, 0x00, 0x11, 0x00), (0, 0x00, 0x01, 0x01), (0, 0x00, 0x03, 0x03),
      (0, 0x00, 0x05, 0x05), (0, 0x00, 0x08, 0x08), (2, 0x00, 0x18, 0x18), (0, 0x1B, 0x1A, 0x1B),
      (2, 0x18, 0x10, 0x18), (0, 0x18, 0x10, 0x10), (0, 0x1B, 0x00, 0x00)] : List (Int × Byte × Byte × Byte)),
      writeField r.1 r.2.1 r.2.2.1 = r.2.2.2 := by decide

/-! ## Example states -/

/-- The eight fields of a 64-bit value, field 0 in its lowest byte. -/
def fields (v : Word) : Vector Byte 8 := Vector.ofFn fun n : Fin 8 => fieldOf v n

/-- A machine with `n` entries and granularity `g` whose stored fields are those of `v`; program P6's `PmpMatch` with no
region and its `PmpCombine`. -/
def machine (n : Nat) (g : Int) (mxl : Int) (priv : Priv) (v : Word) : State :=
  { State.reset with cfg := fields v, mxl := mxl, priv := priv, params := ⟨n, g, .regions [], .lowestNumbered, .successive⟩ }

/-- The machine with `x[r] = v`. -/
def withReg (s : State) (r : Nat) (v : Word) : State := writeReg .w64 r v s

/-- The machine with an instruction word at its pc. -/
def withWord (s : State) (w : Insn) : State := s.setMem (s.mem.writeAll ((bytesFrom s.params s.insnAddr 4).zip (bytesOfInsn w)))

/-- The stored fields as one 64-bit number, whatever MXL is, as 95_test_vectors.md 2.2 writes them. -/
def stored (s : State) : Word := readCsr .w64 s

/-! ## READ and WRITE (95_test_vectors.md 2.2: entries, granularity, before, attempted, after) -/

theorem test_write_64_W1_to_W10 :
    ∀ r ∈ ([(0, 0, 0, 0xFFFFFFFFFFFFFFFF, 0), (1, 0, 0, 0xFFFFFFFFFFFFFFFF, 0x9F),
      (4, 0, 0, 0xFFFFFFFFFFFFFFFF, 0x9F9F9F9F), (5, 0, 0, 0xFFFFFFFFFFFFFFFF, 0x9F9F9F9F9F),
      (8, 2, 0, 0xFFFFFFFFFFFFFFFF, 0x9F9F9F9F9F9F9F9F), (64, 0, 0, 0xFFFFFFFFFFFFFFFF, 0x9F9F9F9F9F9F9F9F)] :
      List (Nat × Int × Word × Word × Word)),
      stored (writeCsr .w64 r.2.2.2.1 (machine r.1 r.2.1 1 .m r.2.2.1)) = r.2.2.2.2 := by decide

theorem test_write_64_W12_to_W16 :
    ∀ r ∈ ([(0, 0, 0x8D027F0098151B0F, 0x8D001F0098151B0F), (0, 0x8D001F0098151B0F, 0, 0x8D00000098000000),
      (0, 0x8D001F0098151B0F, 0x0101010101010101, 0x8D01010198010101),
      (2, 0, 0x1F1F171F1F10080F, 0x1F1F001F1F00080F)] : List (Int × Word × Word × Word)),
      stored (writeCsr .w64 r.2.2.1 (machine 8 r.1 1 .m r.2.1)) = r.2.2.2 := by decide

theorem test_write_32 :
    ∀ r ∈ ([(0, 0, 0, 0xFFFFFFFF, 0), (3, 0, 0, 0xFFFFFFFF, 0x9F9F9F), (5, 0, 0, 0xFFFFFFFF, 0x9F9F9F9F),
      (8, 0, 0x8D001F0098151B0F, 0x07070707, 0x8D001F0098070707), (2, 2, 0, 0x1F1F171F, 0x1F),
      (8, 0, 0x181D9B0F00000B11, 0x0F0F0F0F, 0x181D9B0F0F0F0F0F)] : List (Nat × Int × Word × Word × Word)),
      stored (writeCsr .w32 r.2.2.2.1 (machine r.1 r.2.1 0 .m r.2.2.1)) = r.2.2.2.2 := by decide

/-- 95 W15: the 32-bit READ does not show fields 4 to 7. -/
theorem test_read_32 : readCsr .w32 (machine 8 0 0 .m 0x8D001F0098070707) = 0x98070707 := by decide

/-! ## EntryVerdict (95_test_vectors.md 2.3: field, class, mode, match, verdict) -/

/-- Parameters under which every access matches entry 0, or none does. -/
def matching (b : Bool) : Params := ⟨8, 0, .regions (if b then [⟨0, 0, 99⟩] else []), .lowestNumbered, .successive⟩

theorem test_verdict_E1_to_E16 :
    ∀ r ∈ ([(0x1B, .load, .other 0, true, .noFault), (0x1B, .storeAmo, .other 0, true, .noFault),
      (0x1B, .fetch, .other 0, true, .fault), (0x1B, .fetch, .m, true, .noFault), (0x9B, .fetch, .m, true, .fault),
      (0x9B, .load, .m, true, .noFault), (0x00, .load, .other 0, true, .noMatch),
      (0x87, .fetch, .other 0, true, .noMatch), (0x98, .load, .m, true, .fault), (0x18, .load, .m, true, .noFault),
      (0x18, .load, .other 0, true, .fault), (0x0F, .storeAmo, .other 0, false, .noMatch),
      (0x0D, .storeAmo, .other 0, true, .fault), (0x0D, .load, .other 0, true, .noFault),
      (0x14, .fetch, .other 0, true, .noFault), (0x14, .load, .other 0, true, .fault)] :
      List (Byte × AccessClass × Priv × Bool × Verdict)),
      entryVerdict (matching r.2.2.2.1) 0 r.1 r.2.1 r.2.2.1 ⟨10⟩ 4 = r.2.2.2.2 := by decide

/-! ## Instructions (95_test_vectors.md programs P1 to P5, one instruction each) -/

/-- `rd` after one instruction, and the stored fields. -/
def result (rd : Nat) (i : Instr) (s : State) : Option (Word × Word) :=
  (nextState (exec i s)).map fun t => (readReg .w64 rd t, stored t)

/-- P1, first instruction. -/
theorem test_csrrw_P1 : result 6 (.csrrw 6 5) (withReg (machine 8 0 1 .m 0) 5 0x8D027F0098151B0F) =
    some (0, 0x8D001F0098151B0F) := by decide
/-- R118: with rd = rs1 the register and pmpcfg0 swap, filtered. -/
theorem test_csrrw_swap : result 5 (.csrrw 5 5) (withReg (machine 8 0 1 .m 0x1B0F) 5 0x1F02) =
    some (0x1B0F, 0x1F0F) := by decide
/-- P1, second instruction. -/
theorem test_csrrs_P1 : result 7 (.csrrs 7 0) (machine 8 0 1 .m 0x8D001F0098151B0F) =
    some (0x8D001F0098151B0F, 0x8D001F0098151B0F) := by decide
theorem test_csrrs_sets : result 7 (.csrrs 7 5) (withReg (machine 8 0 1 .m 0x0109) 5 0x1802) =
    some (0x0109, 0x190B) := by decide
/-- P2, at +16. -/
theorem test_csrrc_P2 : result 10 (.csrrc 10 11) (withReg (machine 8 0 1 .m 0x8D0000009800001B) 11 3) =
    some (0x8D0000009800001B, 0x8D00000098000018) := by decide
/-- R121's example; x0 is not written. -/
theorem test_csrrwi_P2 : result 0 (.csrrwi 0 0x0F) (machine 8 0 1 .m 0x8D0000009800001B) =
    some (0, 0x8D0000009800000F) := by decide
/-- P2, at +4: dropped. -/
theorem test_csrrsi_dropped : result 7 (.csrrsi 7 0x1A) (machine 8 0 1 .m 0x8D00000098000000) =
    some (0x8D00000098000000, 0x8D00000098000000) := by decide
/-- P2, at +8: accepted. -/
theorem test_csrrsi_accepted : result 8 (.csrrsi 8 0x1B) (machine 8 0 1 .m 0x8D00000098000000) =
    some (0x8D00000098000000, 0x8D0000009800001B) := by decide
/-- P2, at +12: dropped. -/
theorem test_csrrci_P2 : result 9 (.csrrci 9 1) (machine 8 0 1 .m 0x8D0000009800001B) =
    some (0x8D0000009800001B, 0x8D0000009800001B) := by decide
/-- P4: in the 32-bit format fields 4 to 7 stay, and rd holds the 32-bit value. -/
theorem test_csrrw_P4 : (nextState (exec (.csrrw 6 5) (withReg (machine 8 0 0 .m 0x181D9B0F00000B11) 5 0x0F0F0F0F))).map
    (fun t => (readReg .w32 6 t, stored t, t.pc)) = some (0x00000B11, 0x181D9B0F0F0F0F0F, 4) := by decide
/-- P5: outside M-mode the exception is raised, and nothing else changes. -/
theorem test_csrrw_P5 : nextState (exec (.csrrw 6 5) (machine 8 0 1 (.other 0) 0x1B0F)) =
    some ((machine 8 0 1 (.other 0) 0x1B0F).setRaised (some (.illegalInstruction 0x3A029373))) := by decide

/-! ## Steps -/

/-- The end state of P1, with the regions program P6 assumes and one access pending. -/
def scenario (a : Access) : State :=
  { machine 8 0 1 .m 0x8D001F0098151B0F with
    params := ⟨8, 0, .regions [⟨1, 0x80000000, 0x80000FFF⟩, ⟨3, 0x80001000, 0x80001FFF⟩], .lowestNumbered, .successive⟩
    agenda := [.access a] }

/-- What an access left raised, if the step has a next state. -/
def raisedBy (a : Access) : Option (Option Exception) := (nextState (step (scenario a))).map State.raised

/-- P6, steps 1 to 8. -/
theorem test_accesses_P6 :
    raisedBy ⟨.load 4, .other 0, ⟨0x80000010⟩⟩ = some none ∧
    raisedBy ⟨.store [1, 2, 3, 4], .other 0, ⟨0x80000010⟩⟩ = some none ∧
    raisedBy ⟨.fetch 4, .other 0, ⟨0x80000010⟩⟩ = some (some (.accessFault .fetch)) ∧
    raisedBy ⟨.fetch 4, .m, ⟨0x80000010⟩⟩ = some none ∧
    raisedBy ⟨.load 8, .m, ⟨0x80001000⟩⟩ = some (some (.accessFault .load)) ∧
    raisedBy ⟨.amo [0], .other 0, ⟨0x80001FFF⟩⟩ = some (some (.accessFault .storeAmo)) ∧
    raisedBy ⟨.load 4, .m, ⟨0x90000000⟩⟩ = some none ∧
    raisedBy ⟨.load 4, .other 0, ⟨0x90000000⟩⟩ = some (some (.accessFault .load)) := by decide

/-- The placed instruction is the very next one, straight after reset. -/
theorem test_first_instruction_after_reset :
    (nextState (step (State.reset.withFetchWord 32 0x3A029373))).isSome = true := by decide

theorem test_step_reads_little_endian :
    (nextState (step (withWord (machine 8 0 1 .m 0) 0x3A07D073))).map stored = some 0x0F := by decide

/-! ## Witnesses: concrete states and operands that meet the hypotheses of each statement -/

/-- An M-mode machine in the 64-bit format with eight entries, two of them locked, and `csrrw x6, pmpcfg0, x5` at its
pc. -/
def demo : State := withWord (withReg (machine 8 0 1 .m 0x8D001F0098151B0F) 5 0x1F) 0x3A029373

/-- The same in the 32-bit format. -/
def demo32 : State := demo.setMxl 0

/-- The same in another mode. -/
def demoUser : State := demo.setPriv (.other 0)

/-- A machine whose entry 3, which is locked without X, covers the pc. -/
def demoLockedOut : State :=
  { demo with params := ⟨8, 0, .regions [⟨3, 0, 99⟩], .lowestNumbered, .successive⟩ }

/-- A machine with a next move. -/
def doing (m : Move) (s : State) : State := s.setAgenda [m]

theorem witness_DecodeEncodeIsIdentity : (Instr.csrrw 31 31).wf = true ∧ (Instr.csrrci 0 31).wf = true := by decide
theorem witness_EncodeDecodeIsIdentity : decode 0x3A0D63F3 = .instr (.csrrsi 7 26) := by decide
theorem witness_WriteFieldFollowsItsThreeTests :
    (0x80 : Byte).getLsbD 7 = true ∧ ((0x02 : Byte).getLsbD 0 = false ∧ (0x02 : Byte).getLsbD 1 = true) ∧
    ((2 : Int) ≤ 2 ∧ (0x10 : Byte).extractLsb' 3 2 = 2) ∧
    ((0x7F : Byte).getLsbD 7 = false ∧ ¬((0x10 : Byte).getLsbD 0 = false ∧ (0x10 : Byte).getLsbD 1 = true) ∧
      ¬((2 : Int) ≤ 1 ∧ (0x10 : Byte).extractLsb' 3 2 = 2)) := by decide
theorem witness_LegalityIsKeptByAFieldWrite : legal 2 0x9F = true := by decide
theorem witness_SetAndClearCanBeDropped :
    (0x03 : Byte).getLsbD 1 = true ∧ (0x00 : Byte).getLsbD 0 = false ∧ (2 : Int) ≤ 2 ∧
    (0x07 : Byte).extractLsb' 3 2 = 0 := by decide
theorem witness_LockingAndClearingAnUnlockedField : (0x7F : Byte).getLsbD 7 = false := by decide
theorem witness_ReadReturnsTheFieldsOfTheFormat :
    inFormat .w32 3 ∧ inFormat .w64 7 ∧ ¬ inFormat .w32 4 := by decide
theorem witness_UnimplementedFieldsReadAsZero :
    (machine 3 0 1 .m 0x0F1B0F).cfgInv ∧ inFormat .w32 3 ∧ ¬ implemented (machine 3 0 1 .m 0x0F1B0F).params 3 := by
  decide
theorem witness_FieldsAreWrittenIndependently :
    (machine 8 0 1 .m 0x000F).params = (machine 8 0 1 .m 0x1B0F).params ∧
    (machine 8 0 1 .m 0x000F).cfg[(0 : Fin 8)] = (machine 8 0 1 .m 0x1B0F).cfg[(0 : Fin 8)] ∧
    (0x1F1F : Word).extractLsb' (8 * (0 : Fin 8).val) 8 = (0x001F : Word).extractLsb' (8 * (0 : Fin 8).val) 8 := by
  decide
theorem witness_WritingBackWhatWasReadChangesNothing : demo.cfgInv ∧ stored demo ≠ 0 := by decide
theorem witness_OperandsAreReadAtTheCurrentLength : (31 : Fin 32).val ≠ 0 ∧ 31 < 32 := by decide

/-- The hypotheses of the six statements of an instruction's result, in both formats. -/
theorem witness_instruction_results :
    (31 < 32 ∧ 0 < 32 ∧ demo.priv = .m ∧ formatAt demo.mxl .w64) ∧
    (0 < 32 ∧ 31 < 32 ∧ demo32.priv = .m ∧ formatAt demo32.mxl .w32) := by decide
theorem witness_ImmediateSetAndClearReachFieldZeroOnly :
    demo.cfgInv ∧ demo.priv = .m ∧ (nextState (exec (.csrrsi 7 16) demo)).isSome = true ∧
    (nextState (exec (.csrrci 7 4) demo)).isSome = true := by decide
theorem witness_OutsideMModeIllegalInstructionIsRaised : demoUser.priv ≠ .m := by decide
theorem witness_WithoutALengthTheAccessIsRefused :
    (demo.setMxl 2).priv = .m ∧ (demo.setMxl 2).mxl ≠ 0 ∧ (demo.setMxl 2).mxl ≠ 1 := by decide
theorem witness_AWrittenValueReadsBackUnlessLocked :
    demo.priv = .m ∧ formatAt demo.mxl .w64 ∧ demo.cfgInv ∧ inFormat .w64 0 ∧ implemented demo.params 0 ∧
    legal demo.params.pmpGranularity ((readReg .w64 5 demo).extractLsb' (8 * (0 : Fin 8).val) 8) = true ∧
    (nextState (exec (.csrrw 6 5) demo)).isSome = true ∧ ¬ demo.locked 0 ∧ demo.locked 7 ∧
    legal demo.params.pmpGranularity ((readReg .w64 5 demo).extractLsb' (8 * (7 : Fin 8).val) 8) = true := by decide
theorem witness_StepRunsTheDecodedInstruction :
    demo.instructionNext = true ∧ checkAccess demo .fetch demo.priv demo.insnAddr 4 = .permitted ∧
    demo.wordAtPc = some 0x3A029373 ∧ decode 0x3A029373 = .instr (.csrrw 6 5) := by decide
theorem witness_StepRunsTheDecodedInstruction_as_a_move :
    (doing .instruction demo).instructionNext = true ∧
    checkAccess (doing .instruction demo) .fetch .m ⟨0⟩ 4 = .permitted ∧
    (doing .instruction demo).wordAtPc = some 0x3A029373 := by decide
theorem witness_AFailedFetchRaisesAccessFault :
    demoLockedOut.instructionNext = true ∧
    checkAccess demoLockedOut .fetch demoLockedOut.priv demoLockedOut.insnAddr 4 = .faults := by decide
theorem witness_WordsOutsideTheMapAreRefused :
    (withWord demo 0x3A100073).instructionNext = true ∧
    checkAccess (withWord demo 0x3A100073) .fetch .m ⟨0⟩ 4 = .permitted ∧
    (withWord demo 0x3A100073).wordAtPc = some 0x3A100073 ∧
    (0x3A100073 : Insn) &&& 0xFFF0707F = 0x3A100073 ∧
    (∀ m ∈ ([0x3A001073, 0x3A002073, 0x3A003073, 0x3A005073, 0x3A006073, 0x3A007073] : List Insn),
      (0x3A100073 : Insn) ≠ m) :=
  ⟨by decide, by decide, by decide, by decide, by simp⟩
theorem witness_FetchingAnUnwrittenByteFaults :
    (demo.setPc 1).instructionNext = true ∧
    checkAccess (demo.setPc 1) .fetch (demo.setPc 1).priv (demo.setPc 1).insnAddr 4 = .permitted ∧
    (demo.setPc 1).wordAtPc = none := by decide
theorem witness_APlacedWordIsTheNextInstruction : decode (BitVec.ofNat 32 0x3A00F4F3) = .instr (.csrrci 9 1) := by decide
theorem witness_DisabledEntryMatchesNothing :
    (0x87 : Byte).extractLsb' 3 2 = 0 ∧ (0x87 : Byte).getLsbD 7 = true := by decide
theorem witness_VerdictDependsOnItsOwnFieldOnly :
    (machine 8 0 1 .m 0x0FFB).params = (machine 8 0 0 .m 0x1F9B).params ∧
    (machine 8 0 1 .m 0x0FFB).cfg[(0 : Fin 8)] &&& 0x9F = (machine 8 0 0 .m 0x1F9B).cfg[(0 : Fin 8)] &&& 0x9F := by
  decide
theorem witness_AnAmoThatPassesWPassesR :
    legal (matching true).pmpGranularity 0x1B = true ∧
    entryVerdict (matching true) 0 0x1B .storeAmo (.other 0) ⟨10⟩ 4 ≠ .fault := by decide
theorem witness_TheCheckIsTheCombinationOfTheVerdicts : demoLockedOut.cfgInv := by decide

/-- An access of byte 0, which the entries of the next witness cover. -/
def coveredLoad : Access := ⟨.load 1, .other 0, ⟨0⟩⟩

/-- An entry storing R = 0 with W = 1, and one storing NA4 on coarse hardware, that cover the fetch and an access. -/
theorem witness_AMeaninglessEntryIsRefused :
    ∀ s ∈ [({ machine 8 0 1 .m 0x1A with params := matching true } : State),
        { machine 8 0 1 .m 0x11 with params := { matching true with pmpGranularity := 2 } }],
      implemented s.params 0 ∧ s.cfg[(0 : Fin 8)].extractLsb' 3 2 ≠ 0 ∧
      ((s.cfg[(0 : Fin 8)].getLsbD 0 = false ∧ s.cfg[(0 : Fin 8)].getLsbD 1 = true) ∨
        (2 ≤ s.params.pmpGranularity ∧ s.cfg[(0 : Fin 8)].extractLsb' 3 2 = 2)) ∧
      s.instructionNext = true ∧ pmpMatch s.params (0 : Fin 8) (addrMode s.cfg[(0 : Fin 8)]) s.insnAddr 4 = true ∧
      (doing (.access coveredLoad) s).agenda = [.access coveredLoad] ∧ s.raised = none ∧
      pmpMatch s.params (0 : Fin 8) (addrMode s.cfg[(0 : Fin 8)]) coveredLoad.addr (accessSize coveredLoad.kind) =
        true := by decide

/-- A failing load of program P6. -/
def failingLoad : Access := ⟨.load 8, .m, ⟨0x80001000⟩⟩

/-- A store of program P6's entry 1, up to the last byte of its region. -/
def permittedStore : Access := ⟨.store [1, 2], .other 0, ⟨0x80000FFE⟩⟩

theorem witness_AFailedAccessIsNotPerformed :
    (scenario failingLoad).agenda = [.access failingLoad] ∧ (scenario failingLoad).raised = none ∧
    checkAccess (scenario failingLoad) (accessClass failingLoad.kind) failingLoad.priv failingLoad.addr
      (accessSize failingLoad.kind) = .faults :=
  ⟨rfl, rfl, by decide⟩
theorem witness_APermittedAccessStoresItsBytesOnly :
    (scenario permittedStore).agenda = [.access permittedStore] ∧ (scenario permittedStore).raised = none ∧
    checkAccess (scenario permittedStore) (accessClass permittedStore.kind) permittedStore.priv permittedStore.addr
      (accessSize permittedStore.kind) = .permitted ∧ 1 < (storedBytes permittedStore.kind).length ∧
    byteAt (scenario permittedStore).params permittedStore.addr 1 ≠
      byteAt (scenario permittedStore).params permittedStore.addr 0 :=
  ⟨rfl, rfl, by decide⟩
theorem witness_TrapEntryAndReturnKeepTheFields :
    (doing (.trapEntry 64 .m) demo).agenda = [.trapEntry 64 .m] ∧
    (doing (.trapReturn 8 (.other 0)) demo).agenda = [.trapReturn 8 (.other 0)] ∧
    (doing (.trapReturn 8 (.other 0)) demo).raised = none := by decide
theorem witness_ARaisedExceptionWaitsForItsTrapEntry :
    (demoUser.setRaised (some (.accessFault .load))).raised = some (.accessFault .load) ∧
    (demoUser.setRaised (some (.accessFault .load))).resetNext = false ∧
    ∀ target mode, (demoUser.setRaised (some (.accessFault .load))).agenda.head? ≠ some (.trapEntry target mode) :=
  ⟨rfl, rfl, fun _ _ h => nomatch h⟩

/-- A reset that draws a locked, enabled field 0, a field 1 with R = 0 and W = 1, and a field 7 that is not 0. -/
def draw : ResetDraw := ⟨fields 0x0F0000000000029B, Vector.replicate 32 ⟨0, 1⟩, 128, .m, 1⟩

/-- A machine with three entries only, about to be reset. -/
def aboutToReset : State := doing (.reset draw) (machine 3 0 1 .m 0)

theorem witness_AResetLeavesAdmissibleFields :
    aboutToReset.agenda = [.reset draw] ∧
    (implemented aboutToReset.params 0 ∧ legal aboutToReset.params.pmpGranularity draw.cfg[(0 : Fin 8)] = true) ∧
    (implemented aboutToReset.params 1 ∧ legal aboutToReset.params.pmpGranularity draw.cfg[(1 : Fin 8)] = false) ∧
    (¬ implemented aboutToReset.params 7 ∧ draw.cfg[(7 : Fin 8)] ≠ 0) ∧
    (nextState (step aboutToReset)).map stored = some 0x9B := by decide
theorem witness_SwitchingTheFormatShowsTheKeptFields :
    (doing (.setMxl 1) demo32).mxl = 0 ∧
    (∃ t, exec (.csrrw 6 5) (doing (.setMxl 1) demo32) = .next t ∧ t.agenda = [.setMxl 1] ∧
      ∃ u, step t = .next u) ∧ 4 ≤ (4 : Fin 8).val :=
  ⟨rfl, ⟨_, rfl, rfl, _, rfl⟩, by decide⟩
theorem witness_AChangeOfMxlChangesNothingElse :
    (doing (.setMxl 2) demo).agenda = [.setMxl 2] ∧ (doing (.setMxl 2) demo).raised = none := by decide

/-- A store of an instruction's word where the next instruction is fetched. -/
def selfStore : Access := ⟨.store (bytesOfInsn 0x3A00F4F3), .m, ⟨0⟩⟩

theorem witness_AStoreIsSeenByALaterFetch :
    (doing (.access selfStore) demo).agenda = [.access selfStore] ∧ (doing (.access selfStore) demo).raised = none ∧
    selfStore.addr = (doing (.access selfStore) demo).insnAddr ∧
    checkAccess (doing (.access selfStore) demo) .storeAmo .m (doing (.access selfStore) demo).insnAddr 4 =
      .permitted ∧
    (∀ j < 4, ∀ k < 4, j ≠ k →
      (doing (.access selfStore) demo).insnByte j ≠ (doing (.access selfStore) demo).insnByte k) := by decide
theorem witness_AStoreIsSeenByALaterFetch_runs :
    decode 0x3A00F4F3 = .instr (.csrrci 9 1) ∧
    (nextState (step (doing (.access selfStore) demo))).map
      (fun t => (t.instructionNext, checkAccess t .fetch t.priv t.insnAddr 4)) = some (true, .permitted) := by decide
theorem witness_EveryStepKeepsTheInvariant : demo.Inv ∧ (nextState (step demo)).isSome = true := by decide
theorem witness_LockedFieldsChangeOnlyByReset :
    demo.locked 7 ∧ demo.resetNext = false ∧ (nextState (step demo)).isSome = true := by decide
theorem witness_LocksSurviveEveryRunWithoutReset :
    (∀ m ∈ demo.agenda, m.isReset = false) ∧ demo.locked 3 ∧
    (nextState (Sys2Proof.core.run 1 demo)).isSome = true := by decide
theorem witness_FieldsChangeOnlyByMModeInstructionOrReset :
    ((nextState (step demo)).map fun t => decide (t.cfg ≠ demo.cfg)) = some true := by decide
theorem witness_TheNarrowFormatKeepsTheUpperFields :
    demo32.mxl = 0 ∧ 4 ≤ (4 : Fin 8).val ∧ demo32.resetNext = false ∧ (nextState (step demo32)).isSome = true := by
  decide
theorem witness_ParametersAreStatic :
    (nextState (step demo)).isSome = true ∧ (nextState (step aboutToReset)).isSome = true := by decide
theorem witness_MemoryChangesOnlyByAccesses :
    (∃ t, step demo = .next t) ∧ ∀ a, demo.agenda.head? ≠ some (.access a) :=
  ⟨⟨_, rfl⟩, fun _ h => nomatch h⟩
theorem witness_RegistersChangeOnlyAtTheDestination :
    ((nextState (step demo)).map fun t => decide (t.x[(6 : Fin 32)] ≠ demo.x[(6 : Fin 32)])) = some true := by decide
theorem witness_ExceptionsAriseOnlyAsListed :
    (nextState (step demoUser)).map State.raised = some (some (.accessFault .fetch)) ∧
    (nextState (step demoLockedOut)).map State.raised = some (some (.accessFault .fetch)) ∧
    (nextState (step { demoUser with params := ⟨8, 0, .regions [], .always .noFault, .successive⟩ })).map State.raised =
      some (some (.illegalInstruction 0x3A029373)) ∧
    raisedBy ⟨.load 8, .m, ⟨0x80001000⟩⟩ = some (some (.accessFault .load)) := by decide

end Sys2Proof.Tests
end

section
/-! The parameters of the hardware are static (00_scope.md R6, decision 92 D7; for those R6 does not name, log 2, log 3
and log 18): neither an instruction nor a move of the enclosing processor writes them. -/

namespace Sys2Proof.Machine

@[simp] theorem State.dropMove_params (s : State) : s.dropMove.params = s.params := rfl

@[simp] theorem enterTrap_params (target : Nat) (mode : Priv) (s : State) :
    (enterTrap target mode s).params = s.params := rfl

@[simp] theorem returnFromTrap_params (target : Nat) (mode : Priv) (s : State) :
    (returnFromTrap target mode s).params = s.params := rfl

@[simp] theorem resetBy_params (d : ResetDraw) (s : State) : (resetBy d s).params = s.params := rfl

/-- An instruction keeps the parameters, whether its register access wrote, suppressed its write or raised. -/
theorem exec_keeps_params (i : Instr) (s t : State) (h : exec i s = .next t) : t.params = s.params := by
  rcases exec_next i s t h with ⟨-, len, u, -, hu, rfl⟩ | ⟨-, rfl⟩
  · rcases hu with rfl | ⟨v, rfl⟩ <;> simp
  · simp

/-- An access of the enclosing processor keeps the parameters, whether it was performed or raised. -/
theorem performAccess_keeps_params (a : Access) (s t : State) (h : performAccess a s = .next t) :
    t.params = s.params := by
  rcases performAccess_next a s t h with ⟨-, rfl⟩ | ⟨-, rfl⟩ <;> simp

/-- Settles O54, by the cases of `step_next`: each answer of a step keeps the parameters of the state without its
finished move, and those are the parameters of `s`. -/
theorem parametersAreStatic : Obligations.ParametersAreStatic := by
  intro s t h
  rcases step_next s t h with ⟨-, -, failedFetch⟩ | ⟨-, -, w, i, -, -, instruction⟩ | ⟨a, -, -, access⟩ |
    ⟨target, mode, -, trapEntry⟩ | ⟨target, mode, -, -, trapReturn⟩ | ⟨mxl, -, -, setMxl⟩ | ⟨d, -, reset⟩
  · simp [failedFetch]
  · simpa using exec_keeps_params i s.dropMove t instruction
  · simpa using performAccess_keeps_params a s.dropMove t access
  · simp [trapEntry]
  · simp [trapReturn]
  · simp [setMxl]
  · simp [reset]

end Sys2Proof.Machine
end

section
/-! One field: what a write stores and what a reset leaves are values the invariant of 10_state.md R46 allows. -/

namespace Sys2Proof.Machine

/-- The value an accepted write stores (40_csr_access.md R113): bits 7 and 4:0 are the attempted value's, bits 6:5 the
stored value's (90_conflicts.md C1). -/
def acceptedValue (old new : Byte) : Byte := (new &&& 0x9F) ||| (old &&& 0x60)

@[simp] theorem reservedPerms_acceptedValue (old new : Byte) :
    reservedPerms (acceptedValue old new) = reservedPerms new := by
  simp [reservedPerms, rBit, wBit, acceptedValue]

@[simp] theorem addrMode_acceptedValue (old new : Byte) : addrMode (acceptedValue old new) = addrMode new := by
  have modeBits : (acceptedValue old new).extractLsb' 3 2 = new.extractLsb' 3 2 := by
    ext i hi
    interval_cases i <;> simp [acceptedValue]
  simp only [addrMode, modeBits]

@[simp] theorem invalidMode_acceptedValue (g : Int) (old new : Byte) :
    invalidMode g (acceptedValue old new) = invalidMode g new := by
  simp [invalidMode]

@[simp] theorem reservedBits_acceptedValue (old new : Byte) :
    reservedBits (acceptedValue old new) = reservedBits old := by
  ext i hi
  interval_cases i <;> simp [reservedBits, acceptedValue]

theorem legal_iff (g : Int) (v : Byte) :
    legal g v = true ↔ reservedPerms v = false ∧ invalidMode g v = false ∧ reservedBits v = 0 := by
  simp [legal, and_assoc]

/-- A field write keeps a legal value legal: the tests reject the reserved permissions and modes, and bits 6:5 are the
old ones. -/
theorem legal_writeField (g : Int) (old new : Byte) (h : legal g old = true) :
    legal g (writeField g old new) = true := by
  rcases writeField_cases g old new with kept | ⟨-, hperms, hmode, accepted⟩
  · rwa [kept]
  · obtain ⟨-, -, hreserved⟩ := (legal_iff g old).mp h
    have stored : writeField g old new = acceptedValue old new := accepted
    exact (legal_iff g _).mpr (by simp [stored, hperms, hmode, hreserved])

/-- What a write stores in a field is a value the invariant allows, if what the field held was. -/
theorem fieldInv_storeField (p : Params) (n : Fin 8) (old new : Byte) (h : fieldInv p n old) :
    fieldInv p n (storeField p n old new) := by
  obtain ⟨hlegal, hzero⟩ := h
  refine ⟨fun himp => ?_, fun hun => ?_⟩
  · rw [storeField_implemented p n old new himp]
    exact legal_writeField _ old new (hlegal himp)
  · rw [storeField_unimplemented p n old new (Nat.not_lt.mp hun)]
    exact hzero hun

/-- What a reset leaves in a field is a value the invariant allows, whatever is drawn. -/
theorem fieldInv_resetField (p : Params) (n : Fin 8) (draw : Byte) : fieldInv p n (resetField p n draw) := by
  refine ⟨fun himp => ?_, fun hun => resetField_unimplemented p n draw (Nat.not_lt.mp hun)⟩
  cases hdraw : legal p.pmpGranularity draw with
  | true => rwa [resetField_admissible p n draw himp hdraw]
  | false =>
    rw [resetField_inadmissible p n draw hdraw]
    exact legal_zero p.pmpGranularity

end Sys2Proof.Machine
end

section
/-! All fields: what an instruction and a step can do to them. -/

namespace Sys2Proof.Machine

theorem resetBy_field (d : ResetDraw) (s : State) (n : Fin 8) :
    (resetBy d s).cfg[n] = resetField s.params n d.cfg[n] := by
  simp [resetBy]

theorem writeCsr_keeps_locked (len : Len) (v : Word) (s : State) (n : Fin 8) (h : s.locked n) :
    (writeCsr len v s).cfg[n] = s.cfg[n] := by
  rw [writeCsr_field]
  split
  · rcases Nat.lt_or_ge n.val s.params.numPmpEntries with himp | hun
    · rw [storeField_implemented _ _ _ _ himp, writeField_locked _ _ _ h]
    · exact storeField_unimplemented _ _ _ _ hun
  · rfl

theorem writeCsr_keeps_upper (v : Word) (s : State) (n : Fin 8) (h : 4 ≤ n.val) :
    (writeCsr .w32 v s).cfg[n] = s.cfg[n] := by
  rw [writeCsr_field]
  exact if_neg (Nat.not_lt.mpr h)

theorem writeCsr_keeps_cfgInv (len : Len) (v : Word) (s : State) (h : s.cfgInv) : (writeCsr len v s).cfgInv := by
  intro n
  rw [writeCsr_params, writeCsr_field]
  split
  · exact fieldInv_storeField s.params n _ _ (h n)
  · exact h n

theorem resetBy_cfgInv (d : ResetDraw) (s : State) : (resetBy d s).cfgInv := by
  intro n
  rw [resetBy_params, resetBy_field]
  exact fieldInv_resetField s.params n _

/-- The fields of `t` are those of `s`, or those one WRITE at the length of `s` leaves. -/
def FieldsKeptOrWritten (s t : State) : Prop :=
  t.cfg = s.cfg ∨ ∃ len v, lenOfMxl s.mxl = some len ∧ t.cfg = (writeCsr len v s).cfg

theorem FieldsKeptOrWritten.locked {s t : State} (h : FieldsKeptOrWritten s t) (n : Fin 8) (hl : s.locked n) :
    t.cfg[n] = s.cfg[n] := by
  rcases h with kept | ⟨len, v, -, written⟩
  · rw [kept]
  · rw [written, writeCsr_keeps_locked len v s n hl]

/-- While MXL is 0 the length is 32, and no WRITE at that length reaches fields 4 to 7 (40_csr_access.md R117). -/
theorem FieldsKeptOrWritten.upper {s t : State} (h : FieldsKeptOrWritten s t) (n : Fin 8) (hmxl : s.mxl = 0)
    (hn : 4 ≤ n.val) : t.cfg[n] = s.cfg[n] := by
  rcases h with kept | ⟨len, v, hlen, written⟩
  · rw [kept]
  · obtain rfl : len = .w32 := by simpa [lenOfMxl, hmxl, eq_comm] using hlen
    rw [written, writeCsr_keeps_upper v s n hn]

theorem FieldsKeptOrWritten.cfgInv {s t : State} (h : FieldsKeptOrWritten s t) (hp : t.params = s.params)
    (hs : s.cfgInv) : t.cfgInv := by
  intro n
  rcases h with kept | ⟨len, v, -, written⟩
  · rw [hp, kept]
    exact hs n
  · rw [hp, written]
    exact writeCsr_keeps_cfgInv len v s hs n

theorem exec_fields (i : Instr) (s t : State) (h : exec i s = .next t) : FieldsKeptOrWritten s t := by
  rcases exec_next i s t h with ⟨-, len, u, hlen, unwritten | ⟨v, written⟩, rfl⟩ | ⟨-, raised⟩
  · exact .inl (by simp [unwritten])
  · exact .inr ⟨len, v, hlen, by simp [written]⟩
  · exact .inl (by simp [raised])

theorem performAccess_cfg (a : Access) (s t : State) (h : performAccess a s = .next t) : t.cfg = s.cfg := by
  rcases performAccess_next a s t h with ⟨-, rfl⟩ | ⟨-, rfl⟩ <;> simp

/-- What a step does to the fields: a reset gives them their reset values; any other step keeps them or, as an
instruction, performs one WRITE. -/
theorem step_fields (s t : State) (h : step s = .next t) :
    FieldsKeptOrWritten s t ∨ (∃ d, s.agenda.head? = some (.reset d) ∧ t = resetBy d s.dropMove) := by
  rcases step_next s t h with ⟨-, -, failedFetch⟩ | ⟨-, -, w, i, -, -, instruction⟩ | ⟨a, -, -, access⟩ |
    ⟨target, mode, -, trapEntry⟩ | ⟨target, mode, -, -, trapReturn⟩ | ⟨mxl, -, -, setMxl⟩ | ⟨d, hd, reset⟩
  · exact .inl (.inl (by rw [failedFetch]; rfl))
  · exact .inl (exec_fields i s.dropMove t instruction)
  · exact .inl (.inl (performAccess_cfg a s.dropMove t access))
  · exact .inl (.inl (by rw [trapEntry]; rfl))
  · exact .inl (.inl (by rw [trapReturn]; rfl))
  · exact .inl (.inl (by rw [setMxl]; rfl))
  · exact .inr ⟨d, hd, reset⟩

theorem step_fields_of_not_reset (s t : State) (hr : s.resetNext = false) (h : step s = .next t) :
    FieldsKeptOrWritten s t := by
  rcases step_fields s t h with keptOrWritten | ⟨d, hd, -⟩
  · exact keptOrWritten
  · simp [State.resetNext, hd, Move.isReset] at hr

end Sys2Proof.Machine
end

section
/-! Every step keeps the invariant (10_state.md R46): the fields by `step_fields`, memory because an access only writes
bytes and nothing else changes it. -/

namespace Sys2Proof.Machine

theorem exec_keeps_mem (i : Instr) (s t : State) (h : exec i s = .next t) : t.mem = s.mem := by
  rcases exec_next i s t h with ⟨-, len, u, -, hu, rfl⟩ | ⟨-, rfl⟩
  · rcases hu with rfl | ⟨v, rfl⟩ <;> simp
  · simp

theorem performAccess_keeps_wf (a : Access) (s t : State) (h : performAccess a s = .next t) (hs : s.mem.wf) :
    t.mem.wf := by
  rcases performAccess_next a s t h with ⟨-, performed⟩ | ⟨-, raised⟩
  · rw [performed]
    exact Memory.writeAll_wf s.mem _ hs
  · rwa [raised]

theorem step_keeps_wf (s t : State) (h : step s = .next t) (hs : s.mem.wf) : t.mem.wf := by
  rcases step_next s t h with ⟨-, -, failedFetch⟩ | ⟨-, -, w, i, -, -, instruction⟩ | ⟨a, -, -, access⟩ |
    ⟨target, mode, -, trapEntry⟩ | ⟨target, mode, -, -, trapReturn⟩ | ⟨mxl, -, -, setMxl⟩ | ⟨d, -, reset⟩
  · rwa [failedFetch]
  · rwa [exec_keeps_mem i s.dropMove t instruction]
  · exact performAccess_keeps_wf a s.dropMove t access hs
  · rwa [trapEntry]
  · rwa [trapReturn]
  · rwa [setMxl]
  · rwa [reset]

theorem step_keeps_cfgInv (s t : State) (h : step s = .next t) (hs : s.cfgInv) : t.cfgInv := by
  rcases step_fields s t h with keptOrWritten | ⟨d, -, reset⟩
  · exact keptOrWritten.cfgInv (parametersAreStatic s t h) hs
  · rw [reset]
    exact resetBy_cfgInv d s.dropMove

/-- Settles O49: the two halves of the invariant are each kept by every step. -/
theorem everyStepKeepsTheInvariant : Obligations.EveryStepKeepsTheInvariant := by
  intro s t ⟨hcfg, hmem⟩ h
  exact ⟨step_keeps_cfgInv s t h hcfg, step_keeps_wf s t h hmem⟩

/-- Settles O48: the fields are those of a reset, and no byte of memory is listed. -/
theorem invariantHoldsAfterReset : Obligations.InvariantHoldsAfterReset := by
  refine ⟨fun n => ?_, List.Pairwise.nil⟩
  have field : State.reset.cfg[n] = resetField Config.params n (Config.resetCfg n) := by simp [State.reset]
  rw [field]
  exact fieldInv_resetField Config.params n _

/-- Settles O50: but for a reset, a step keeps the fields or performs one WRITE, which keeps a locked field. -/
theorem lockedFieldsChangeOnlyByReset : Obligations.LockedFieldsChangeOnlyByReset := by
  intro s t n hlocked hreset h
  exact (step_fields_of_not_reset s t hreset h).locked n hlocked

/-- Settles O53: but for a reset, a step keeps the fields or performs one WRITE, at length 32 while MXL is 0. -/
theorem theNarrowFormatKeepsTheUpperFields : Obligations.TheNarrowFormatKeepsTheUpperFields := by
  intro s t n hmxl hn hreset h
  exact (step_fields_of_not_reset s t hreset h).upper n hmxl hn

/-- Settles O44, by the move of a reset: each field is `resetField` of its draw, and the rest is the move's or stays. -/
theorem aResetLeavesAdmissibleFields : Obligations.AResetLeavesAdmissibleFields := by
  intro s d rest hagenda
  refine ⟨resetBy d (s.setAgenda rest), step_of_move s _ rest hagenda, fun n => ?_, rfl, rfl, rfl, rfl, rfl, rfl, rfl,
    rfl⟩
  obtain ⟨hlegal, hzero⟩ := fieldInv_resetField s.params n d.cfg[n]
  rw [resetBy_field, State.setAgenda_params]
  exact ⟨hlegal, fun himp hdraw => resetField_admissible s.params n _ himp hdraw, hzero⟩

end Sys2Proof.Machine
end

section
/-! The register as a whole: the value read, its length, and a change of MXL. -/

namespace Sys2Proof.Machine

/-- Byte `k + 1` of a concatenation is byte `k` of what stands above its lowest byte. -/
theorem extractByte_append {w : Nat} {high : BitVec w} {low b : Byte} {k : Nat}
    (h : high.extractLsb' (8 * k) 8 = b) : (high ++ low).extractLsb' (8 * (k + 1)) 8 = b := by
  rwa [BitVec.extractLsb'_append_eq_of_le (by omega), Nat.mul_succ, Nat.add_sub_cancel]

theorem readCsr_w64_byte (s : State) : ∀ n : Fin 8, (readCsr .w64 s).extractLsb' (8 * n.val) 8 = s.cfg[n]
  | 0 | 1 | 2 | 3 | 4 | 5 | 6 => by
    repeat apply extractByte_append
    exact BitVec.extractLsb'_append_eq_right
  | 7 => by
    repeat apply extractByte_append
    exact BitVec.extractLsb'_eq_self

theorem readCsr_w32_byte (s : State) (n : Fin 8) (h : n.val < 4) :
    (readCsr .w32 s).extractLsb' (8 * n.val) 8 = s.cfg[n] := by
  have inside : 8 * n.val + 8 ≤ 64 := by omega
  rw [readCsr, BitVec.extractLsb'_setWidth_of_le inside]
  obtain ⟨n, _⟩ := n
  replace h : n < 4 := h
  interval_cases n
  · exact BitVec.extractLsb'_append_eq_right
  · exact extractByte_append BitVec.extractLsb'_append_eq_right
  · exact extractByte_append (extractByte_append BitVec.extractLsb'_append_eq_right)
  · exact extractByte_append (extractByte_append (extractByte_append BitVec.extractLsb'_eq_self))

theorem readCsr_w32_upper (s : State) : (readCsr .w32 s).extractLsb' 32 32 = 0 := by
  ext i hi
  simp [readCsr, BitVec.getLsbD_of_ge]

/-- Settles O12: the value read is the concatenation of the fields of its length. -/
theorem readReturnsTheFieldsOfTheFormat : Obligations.ReadReturnsTheFieldsOfTheFormat := by
  intro len s
  cases len with
  | w32 => exact ⟨fun n hn => readCsr_w32_byte s n (by simpa [inFormat] using hn), fun _ => readCsr_w32_upper s⟩
  | w64 => exact ⟨fun n _ => readCsr_w64_byte s n, fun h => by cases h⟩

theorem lenOfMxl_none (mxl : Int) (h0 : mxl ≠ 0) (h1 : mxl ≠ 1) : lenOfMxl mxl = none := by
  simp [lenOfMxl, h0, h1]

/-- Every instruction is one access to the register, with the effect of its row. -/
theorem exec_eq_csrAccess (i : Instr) (s : State) : ∃ effect, exec i s = csrAccess i s effect := by
  cases i with
  | csrrw rd rs1 => exact ⟨_, rfl⟩
  | csrrs rd rs1 => exact ⟨_, rfl⟩
  | csrrc rd rs1 => exact ⟨_, rfl⟩
  | csrrwi rd uimm => exact ⟨_, rfl⟩
  | csrrsi rd uimm => exact ⟨_, rfl⟩
  | csrrci rd uimm => exact ⟨_, rfl⟩

/-- Settles O27: each of the six is an access to the register, which has no length. -/
theorem withoutALengthTheAccessIsRefused : Obligations.WithoutALengthTheAccessIsRefused := by
  intro i s hpriv h0 h1
  obtain ⟨effect, hexec⟩ := exec_eq_csrAccess i s
  rw [hexec]
  exact csrAccess_refused i s effect hpriv (lenOfMxl_none s.mxl h0 h1)

theorem step_setMxl (s : State) (mxl : Int) (rest : List Move) (ha : s.agenda = .setMxl mxl :: rest)
    (hr : s.raised = none) : step s = .next ((s.setAgenda rest).setMxl mxl) := by
  rw [step_of_move s _ rest ha]
  exact whenDelivered_none _ _ hr

/-- Settles O46, by the move of a change of MXL. -/
theorem aChangeOfMxlChangesNothingElse : Obligations.AChangeOfMxlChangesNothingElse := by
  intro s mxl rest hagenda hraised
  exact ⟨_, step_setMxl s mxl rest hagenda hraised, rfl, rfl, rfl, rfl, rfl, rfl, hraised, rfl, rfl⟩

theorem step_setMxl_next (s t : State) (mxl : Int) (rest : List Move) (ha : s.agenda = .setMxl mxl :: rest)
    (h : step s = .next t) : t = (s.setAgenda rest).setMxl mxl := by
  rw [step_of_move s _ rest ha] at h
  obtain ⟨-, changed⟩ := whenDelivered_next _ _ _ h
  cases changed
  rfl

/-- Settles O45: the instruction keeps fields 4 to 7 at MXL 0, the change of MXL keeps every field, and the value then
read shows all eight. -/
theorem switchingTheFormatShowsTheKeptFields : Obligations.SwitchingTheFormatShowsTheKeptFields := by
  intro i s t u rest n hmxl hexec hagenda hstep hn
  obtain rfl := step_setMxl_next t u 1 rest hagenda hstep
  refine ⟨rfl, ?_⟩
  rw [readCsr_w64_byte]
  exact (exec_fields i s t hexec).upper n hmxl hn

end Sys2Proof.Machine
end

section
/-! How many values are legal: the granularity matters only by its side of 2, so two counts over the 256 values are all
there is. -/

namespace Sys2Proof.Machine

theorem invalidMode_of_fine (g : Int) (v : Byte) (h : g < 2) : invalidMode g v = invalidMode 0 v := by
  simp [invalidMode, Int.not_le.mpr h]

theorem invalidMode_of_coarse (g : Int) (v : Byte) (h : 2 ≤ g) : invalidMode g v = invalidMode 2 v := by
  simp [invalidMode, h]

/-- How many of the 256 byte values have a property. -/
def byteCount (p : Byte → Bool) : Nat := (List.range 256).countP fun k => p (BitVec.ofNat 8 k)

/-- How many of the 32 values whose bits 7:5 are `top` have a property. -/
def blockCount (p : Byte → Bool) (top : Nat) : Nat :=
  (List.range 32).countP fun k => p (BitVec.ofNat 8 (32 * top + k))

/-- Counting over the first `32 * n` numbers goes block by block. -/
theorem countP_range_blocks (p : Byte → Bool) (n : Nat) :
    ((List.range (32 * n)).countP fun k => p (BitVec.ofNat 8 k)) = ((List.range n).map (blockCount p)).sum := by
  induction n with
  | zero => rfl
  | succ n ih =>
    rw [Nat.mul_succ, List.range_add, List.countP_append, ih, List.countP_map, List.range_succ (n := n),
      List.map_append, List.sum_append, List.map_singleton, List.sum_singleton]
    rfl

theorem byteCount_eq_sum (p : Byte → Bool) : byteCount p = ((List.range 8).map (blockCount p)).sum :=
  countP_range_blocks p 8

theorem byteCount_legal_fine : byteCount (legal 0) = 48 := by
  rw [byteCount_eq_sum]
  decide

theorem byteCount_legal_coarse : byteCount (legal 2) = 36 := by
  rw [byteCount_eq_sum]
  decide

theorem byteCount_accepted_fine : byteCount (fun v => !reservedPerms v && !invalidMode 0 v) = 192 := by
  rw [byteCount_eq_sum]
  decide

theorem byteCount_accepted_coarse : byteCount (fun v => !reservedPerms v && !invalidMode 2 v) = 144 := by
  rw [byteCount_eq_sum]
  decide

/-- Settles O8, by the side of 2 on which the granularity lies. -/
theorem legalValuesAreCounted : Obligations.LegalValuesAreCounted := by
  intro g
  rcases lt_or_ge g 2 with fine | coarse
  · simp only [if_pos fine, legal, invalidMode_of_fine g _ fine]
    exact ⟨byteCount_legal_fine, byteCount_accepted_fine⟩
  · simp only [if_neg (Int.not_lt.mpr coarse), legal, invalidMode_of_coarse g _ coarse]
    exact ⟨byteCount_legal_coarse, byteCount_accepted_coarse⟩

end Sys2Proof.Machine
end

section
/-! The verdict of one entry (20_memory.md R62 to R64): whether the entry covers the access, and if it does, whether it
applies to the mode and lacks the permission. -/

namespace Sys2Proof.Machine

/-- Entry `n`, storing `v`, is implemented and enabled, and `PmpMatch` holds of it and the access. -/
abbrev Covers (p : Params) (n : Nat) (v : Byte) (addr : Addr) (nbytes : Nat) : Prop :=
  n < p.numPmpEntries ∧ addrMode v ≠ .off ∧ pmpMatch p n (addrMode v) addr nbytes = true

theorem entryVerdict_of_not_covers {p : Params} {n : Nat} {v : Byte} {addr : Addr} {nbytes : Nat} (c : AccessClass)
    (priv : Priv) (h : ¬ Covers p n v addr nbytes) : entryVerdict p n v c priv addr nbytes = .noMatch := by
  unfold entryVerdict
  split
  · rfl
  · rename_i himp
    split
    · rfl
    · rename_i hmode
      refine if_pos ?_
      simpa [Covers, Nat.not_le.mp himp, hmode] using h

theorem entryVerdict_of_covers {p : Params} {n : Nat} {v : Byte} {addr : Addr} {nbytes : Nat} (c : AccessClass)
    (priv : Priv) (h : Covers p n v addr nbytes) :
    entryVerdict p n v c priv addr nbytes =
      if appliesTo v priv = true ∧ ¬ permBit v c = true then .fault else .noFault := by
  obtain ⟨himp, hmode, hmatch⟩ := h
  simp only [entryVerdict, if_neg (Nat.not_le.mpr himp), if_neg hmode, hmatch]
  cases appliesTo v priv with
  | false => rfl
  | true =>
    cases permBit v c with
    | false => rfl
    | true => rfl

theorem entryVerdict_noMatch_iff (p : Params) (n : Nat) (v : Byte) (c : AccessClass) (priv : Priv) (addr : Addr)
    (nbytes : Nat) : entryVerdict p n v c priv addr nbytes = .noMatch ↔ ¬ Covers p n v addr nbytes := by
  refine ⟨fun hverdict hcov => ?_, entryVerdict_of_not_covers c priv⟩
  rw [entryVerdict_of_covers c priv hcov] at hverdict
  split at hverdict <;> cases hverdict

theorem entryVerdict_fault_iff (p : Params) (n : Nat) (v : Byte) (c : AccessClass) (priv : Priv) (addr : Addr)
    (nbytes : Nat) : entryVerdict p n v c priv addr nbytes = .fault ↔
      Covers p n v addr nbytes ∧ appliesTo v priv = true ∧ ¬ permBit v c = true := by
  by_cases hcov : Covers p n v addr nbytes
  · rw [entryVerdict_of_covers c priv hcov, and_iff_right hcov]
    simp
  · simp [entryVerdict_of_not_covers c priv hcov, hcov]

theorem entryVerdict_noFault_iff (p : Params) (n : Nat) (v : Byte) (c : AccessClass) (priv : Priv) (addr : Addr)
    (nbytes : Nat) : entryVerdict p n v c priv addr nbytes = .noFault ↔
      Covers p n v addr nbytes ∧ (¬ appliesTo v priv = true ∨ permBit v c = true) := by
  by_cases hcov : Covers p n v addr nbytes
  · rw [entryVerdict_of_covers c priv hcov, and_iff_right hcov]
    simp [imp_iff_not_or]
  · simp [entryVerdict_of_not_covers c priv hcov, hcov]

/-- The mode that bits 4:3 name (10_state.md R40, 30_encoding.md R92). -/
theorem addrMode_eq (v : Byte) :
    addrMode v = if v.extractLsb' 3 2 = 0 then .off else if v.extractLsb' 3 2 = 1 then .tor
      else if v.extractLsb' 3 2 = 2 then .na4 else .napot := by
  unfold addrMode
  generalize v.extractLsb' 3 2 = modeBits
  revert modeBits
  decide

/-- The check applies to every mode but M, and to M while L is 1 (20_memory.md R63). -/
theorem appliesTo_iff (v : Byte) (priv : Priv) : appliesTo v priv = true ↔ priv ≠ .m ∨ v.getLsbD 7 = true := by
  cases priv with
  | m => simp [appliesTo, lockBit]
  | other id => simp [appliesTo]

theorem permBit_eq (v : Byte) (c : AccessClass) : permBit v c = v.getLsbD (permissionPosition c) := by
  cases c with
  | fetch => rfl
  | load => rfl
  | storeAmo => rfl

/-- Settles O34: the three verdicts in terms of `Covers`, `appliesTo` and `permBit`, each read off the bits. -/
theorem entryVerdictFaultsExactlyWhen : Obligations.EntryVerdictFaultsExactlyWhen := by
  intro p n v c priv addr nbytes mode covered applies permitted
  have hmode : addrMode v = mode := addrMode_eq v
  have hcovered : Covers p n v addr nbytes ↔ covered := by rw [Covers, hmode]
  have happlies : appliesTo v priv = true ↔ applies := appliesTo_iff v priv
  have hpermitted : permBit v c = true ↔ permitted := by rw [permBit_eq]
  refine ⟨?_, ?_, ?_⟩
  · rw [entryVerdict_noMatch_iff, hcovered]
  · rw [entryVerdict_fault_iff, hcovered, happlies, hpermitted]
  · rw [entryVerdict_noFault_iff, hcovered, happlies, hpermitted]

/-- Settles O35: with A = 0 the entry covers nothing, and the lock test of a field write does not look at A. -/
theorem disabledEntryMatchesNothing : Obligations.DisabledEntryMatchesNothing := by
  intro p n v hoff
  have hmode : addrMode v = .off := (addrMode_eq v).trans (if_pos hoff)
  exact ⟨fun c priv addr nbytes => entryVerdict_of_not_covers c priv fun ⟨_, henabled, _⟩ => henabled hmode,
    fun hlock g new => writeField_locked g v new hlock⟩

/-- Settles O37: an entry that faults the load covers it, applies and has R = 0; not faulting the AMO it has W = 1, and
R = 0 with W = 1 is not legal. -/
theorem anAmoThatPassesWPassesR : Obligations.AnAmoThatPassesWPassesR := by
  intro p n v priv addr nbytes hlegal hamo hload
  obtain ⟨hcovers, happlies, hr⟩ := (entryVerdict_fault_iff ..).mp hload
  have hw : wBit v = true := by
    by_contra hw
    exact hamo ((entryVerdict_fault_iff ..).mpr ⟨hcovers, happlies, hw⟩)
  have hperms : reservedPerms v = true := by simpa [reservedPerms, hw, permBit] using hr
  obtain ⟨hallowed, -, -⟩ := (legal_iff p.pmpGranularity v).mp hlegal
  exact absurd hperms (by simp [hallowed])

@[simp] theorem appliesTo_acceptedValue (old new : Byte) (priv : Priv) :
    appliesTo (acceptedValue old new) priv = appliesTo new priv := by
  cases priv with
  | m => simp [appliesTo, lockBit, acceptedValue]
  | other id => rfl

@[simp] theorem permBit_acceptedValue (old new : Byte) (c : AccessClass) :
    permBit (acceptedValue old new) c = permBit new c := by
  cases c with
  | fetch => simp [permBit, xBit, acceptedValue]
  | load => simp [permBit, rBit, acceptedValue]
  | storeAmo => simp [permBit, wBit, acceptedValue]

/-- Bits 6:5 of a field do not enter its verdict: `acceptedValue` replaces them and keeps the others. -/
@[simp] theorem entryVerdict_acceptedValue (p : Params) (n : Nat) (old v : Byte) (c : AccessClass) (priv : Priv)
    (addr : Addr) (nbytes : Nat) :
    entryVerdict p n (acceptedValue old v) c priv addr nbytes = entryVerdict p n v c priv addr nbytes := by
  simp [entryVerdict]

theorem entryVerdict_eq_of_agree (p : Params) (n : Nat) (v w : Byte) (c : AccessClass) (priv : Priv) (addr : Addr)
    (nbytes : Nat) (h : v &&& 0x9F = w &&& 0x9F) :
    entryVerdict p n v c priv addr nbytes = entryVerdict p n w c priv addr nbytes :=
  calc entryVerdict p n v c priv addr nbytes
    _ = entryVerdict p n (acceptedValue 0 v) c priv addr nbytes := (entryVerdict_acceptedValue ..).symm
    _ = entryVerdict p n (acceptedValue 0 w) c priv addr nbytes := by rw [acceptedValue, h, ← acceptedValue]
    _ = entryVerdict p n w c priv addr nbytes := entryVerdict_acceptedValue ..

end Sys2Proof.Machine
end

section
/-! The check of an access: the list of the eight verdicts (20_memory.md R67), and no refusal under the invariant of
10_state.md R46. -/

namespace Sys2Proof.Machine

theorem verdicts_eq_ofFn (s : State) (c : AccessClass) (priv : Priv) (addr : Addr) (nbytes : Nat) :
    verdicts s c priv addr nbytes =
      List.ofFn fun n : Fin 8 => entryVerdict s.params n s.cfg[n] c priv addr nbytes :=
  List.ofFn_eq_map.symm

theorem verdicts_getElem? (s : State) (c : AccessClass) (priv : Priv) (addr : Addr) (nbytes : Nat) (n : Fin 8) :
    (verdicts s c priv addr nbytes)[n.val]? = some (entryVerdict s.params n s.cfg[n] c priv addr nbytes) := by
  rw [verdicts_eq_ofFn, List.getElem?_ofFn]
  exact dif_pos n.isLt

/-- Settles O36: element `n` is the verdict of field `n`, into which bits 6:5 do not enter. -/
theorem verdictDependsOnItsOwnFieldOnly : Obligations.VerdictDependsOnItsOwnFieldOnly := by
  intro s t n c priv addr nbytes hparams hfield
  refine ⟨verdicts_getElem? .., ?_⟩
  rw [verdicts_getElem?, verdicts_getElem?, hparams, entryVerdict_eq_of_agree _ _ _ _ _ _ _ _ hfield]

/-- A value the invariant allows has a meaning: implemented it is legal, unimplemented it matches nothing. -/
theorem meaningless_of_fieldInv (p : Params) (n : Fin 8) (v : Byte) (addr : Addr) (nbytes : Nat)
    (h : fieldInv p n v) : meaningless p n v addr nbytes = false := by
  obtain ⟨hlegal, -⟩ := h
  by_cases himp : implemented p n
  · obtain ⟨hperms, hmode, -⟩ := (legal_iff _ v).mp (hlegal himp)
    simp [meaningless, hperms, hmode]
  · simp [meaningless, Nat.not_lt.mp himp]

theorem find?_meaningless_of_cfgInv (s : State) (addr : Addr) (nbytes : Nat) (h : s.cfgInv) :
    (List.finRange 8).find? (fun n : Fin 8 => meaningless s.params n s.cfg[n] addr nbytes) = none :=
  List.find?_eq_none.mpr fun n _ => by simpa using meaningless_of_fieldInv s.params n s.cfg[n] addr nbytes (h n)

/-- Settles O38: no entry is without a meaning, so what the eight verdicts combine to decides. -/
theorem theCheckIsTheCombinationOfTheVerdicts : Obligations.TheCheckIsTheCombinationOfTheVerdicts := by
  intro s c priv addr nbytes h
  rw [checkAccess, find?_meaningless_of_cfgInv s addr nbytes h, verdicts_eq_ofFn]
  generalize pmpCombine s.params priv _ = combined
  cases combined with
  | noFault => rfl
  | fault => rfl

end Sys2Proof.Machine
end

section
/-! The fetch of an instruction: the word its four bytes make, or the fault for one that is not written (log 18). -/

namespace Sys2Proof.Machine

/-- Reading bytes fails only at one of the addresses asked for, which holds no byte. -/
theorem Memory.readAll_error (m : Memory) (as : List Addr) (a : Addr) (h : m.readAll as = .error a) :
    a ∈ as ∧ m.read a = none := by
  induction as with
  | nil => cases h
  | cons c as ih =>
    simp only [Memory.readAll] at h
    split at h
    · rename_i hunwritten
      cases h
      exact ⟨List.mem_cons_self, hunwritten⟩
    · split at h
      · rename_i hrest
        cases h
        obtain ⟨hmem, hunwritten⟩ := ih hrest
        exact ⟨List.mem_cons_of_mem c hmem, hunwritten⟩
      · cases h

theorem mem_bytesFrom (p : Params) (addr a : Addr) (n : Nat) :
    a ∈ bytesFrom p addr n ↔ ∃ k, k < n ∧ byteAt p addr k = a := by
  simp [bytesFrom]

/-- Where no word stands at the pc, the read of the fetch fails at one of its four bytes, which is not written. -/
theorem readAll_of_wordAtPc_none (s : State) (h : s.wordAtPc = none) :
    ∃ k, k < 4 ∧ s.mem.readAll (bytesFrom s.params s.insnAddr 4) = .error (s.insnByte k) ∧
      s.mem.read (s.insnByte k) = none := by
  cases hread : s.mem.readAll (bytesFrom s.params s.insnAddr 4) with
  | ok bytes =>
    obtain ⟨w, hw, -⟩ := wordAtPc_of_readAll s bytes hread
    simp [h] at hw
  | error a =>
    obtain ⟨hmem, hunwritten⟩ := Memory.readAll_error s.mem _ a hread
    obtain ⟨k, hk, rfl⟩ := (mem_bytesFrom ..).mp hmem
    exact ⟨k, hk, rfl, hunwritten⟩

theorem runInstruction_of_unreadable (s : State) (a : Addr)
    (hc : checkAccess s .fetch s.priv s.insnAddr 4 = .permitted)
    (hread : s.mem.readAll (bytesFrom s.params s.insnAddr 4) = .error a) :
    runInstruction s = .fault (.unwrittenByte a) := by
  simp only [runInstruction, hc, hread]

theorem runInstruction_of_word (s : State) (w : Insn) (i : Instr)
    (hc : checkAccess s .fetch s.priv s.insnAddr 4 = .permitted) (hw : s.wordAtPc = some w)
    (hd : decode w = .instr i) : runInstruction s = exec i s := by
  obtain ⟨bytes, hread, hbytes⟩ := readAll_of_wordAtPc s w hw
  simp only [runInstruction, hc, hread, hbytes, hd]

/-- Settles O29: the fetch of the state without the finished move is that of `s`. -/
theorem stepRunsTheDecodedInstruction : Obligations.StepRunsTheDecodedInstruction := by
  intro s w i hnext hc hw hd
  rw [step_of_instructionNext s hnext]
  exact runInstruction_of_word s.dropMove w i hc hw hd

/-- Settles O32: the read of the four bytes fails at one of them, and the step stops with that address. -/
theorem fetchingAnUnwrittenByteFaults : Obligations.FetchingAnUnwrittenByteFaults := by
  intro s hnext hc hw
  obtain ⟨k, hk, hread, hunwritten⟩ := readAll_of_wordAtPc_none s hw
  refine ⟨k, hk, ?_, hunwritten⟩
  rw [step_of_instructionNext s hnext]
  exact runInstruction_of_unreadable s.dropMove _ hc hread

end Sys2Proof.Machine
end

section
/-! The accesses of the enclosing processor: a permitted one stores its bytes (log 12), which a later fetch reads (log
35), and no other move changes memory. -/

namespace Sys2Proof.Machine

/-- The step of a permitted access: its bytes are written, and the move is done. -/
theorem step_of_permitted_access (s : State) (a : Access) (rest : List Move) (ha : s.agenda = .access a :: rest)
    (hr : s.raised = none)
    (hc : checkAccess s (accessClass a.kind) a.priv a.addr (accessSize a.kind) = .permitted) :
    step s = .next ((s.setAgenda rest).setMem (s.mem.writeAll (storedCells s.params a))) := by
  have hc' : checkAccess (s.setAgenda rest) (accessClass a.kind) a.priv a.addr (accessSize a.kind) = .permitted := hc
  rw [step_of_move s _ rest ha, perform, whenDelivered_none (s.setAgenda rest) _ hr]
  simp only [performAccess, hc', State.setAgenda_mem, State.setAgenda_params]

/-- Settles O41: memory after the step is what `storedCells_read` and `storedCells_read_other` say of it. -/
theorem aPermittedAccessStoresItsBytesOnly : Obligations.APermittedAccessStoresItsBytesOnly := by
  intro s a rest ha hr hc
  exact ⟨_, step_of_permitted_access s a rest ha hr hc, storedCells_read s.params a s.mem,
    storedCells_read_other s.params a s.mem, rfl, rfl, rfl, rfl, rfl, rfl, hr, rfl⟩

/-- The word at the pc is `w` when the four bytes it is fetched from are those of `w`. -/
theorem wordAtPc_of_bytes (s : State) (w : Insn)
    (h : ∀ k, k < 4 → s.mem.read (s.insnByte k) = (bytesOfInsn w)[k]?) : s.wordAtPc = some w := by
  unfold State.wordAtPc
  rw [h 0 (by decide), h 1 (by decide), h 2 (by decide), h 3 (by decide)]
  exact congrArg some (insnOfBytes_of_insn w)

/-- Settles O47: by the result of a permitted store each byte of the fetch reads as the byte of `w`, as no later byte of
the store has its address; the next step then runs the word that stands there. -/
theorem aStoreIsSeenByALaterFetch : Obligations.AStoreIsSeenByALaterFetch := by
  intro s priv rest w ha hr hc hdistinct
  obtain ⟨t, hstep, hstored, -, hagenda, hcfg, hx, hpc, -, -, -, hparams⟩ :=
    aPermittedAccessStoresItsBytesOnly s ⟨.store (bytesOfInsn w), priv, s.insnAddr⟩ rest ha hr hc
  have hbyte : ∀ k, t.insnByte k = s.insnByte k := fun k => by
    simp only [State.insnByte, State.insnAddr, hparams, hpc]
  have hword : t.wordAtPc = some w := wordAtPc_of_bytes t w fun k hk => by
    rw [hbyte]
    exact hstored k hk fun j hkj hj => hdistinct j k hj hk (by omega)
  exact ⟨t, hstep, hword, hagenda, hpc, hcfg, hx,
    fun i hd hnext hcheck => stepRunsTheDecodedInstruction t w i hnext hcheck hword hd⟩

/-- A step that is no access of the enclosing processor keeps memory as it is held. -/
theorem step_keeps_mem (s t : State) (h : step s = .next t) (hna : ∀ a, s.agenda.head? ≠ some (.access a)) :
    t.mem = s.mem := by
  rcases step_next s t h with ⟨-, -, failedFetch⟩ | ⟨-, -, w, i, -, -, instruction⟩ | ⟨a, access, -, -⟩ |
    ⟨target, mode, -, trapEntry⟩ | ⟨target, mode, -, -, trapReturn⟩ | ⟨mxl, -, -, setMxl⟩ | ⟨d, -, reset⟩
  · rw [failedFetch]; rfl
  · exact exec_keeps_mem i s.dropMove t instruction
  · exact absurd access (hna a)
  · rw [trapEntry]; rfl
  · rw [trapReturn]; rfl
  · rw [setMxl]; rfl
  · rw [reset]; rfl

/-- Settles O55: such a step keeps memory as a whole, so every byte of it. -/
theorem memoryChangesOnlyByAccesses : Obligations.MemoryChangesOnlyByAccesses := by
  intro s t h hna b
  rw [step_keeps_mem s t h hna]

end Sys2Proof.Machine
end

section
/-! The encoding (30_encoding.md R95 to R98): an instruction is its `funct3` and its two operands, in its word as in the
answer of the decoder, and the mask of the opcode map keeps exactly the fields that the decoder tests. -/

namespace Sys2Proof

open Machine (destination)

/-- The `funct3` of an instruction's row (30_encoding.md R97). -/
def Instr.funct3 : Instr → BitVec 3
  | .csrrw _ _ => 1
  | .csrrs _ _ => 2
  | .csrrc _ _ => 3
  | .csrrwi _ _ => 5
  | .csrrsi _ _ => 6
  | .csrrci _ _ => 7

/-- The operand in bits 19:15 of an instruction's word: `rs1` or `uimm` (30_encoding.md R96). -/
def Instr.source : Instr → Nat
  | .csrrw _ rs1 => rs1
  | .csrrs _ rs1 => rs1
  | .csrrc _ rs1 => rs1
  | .csrrwi _ uimm => uimm
  | .csrrsi _ uimm => uimm
  | .csrrci _ uimm => uimm

theorem encode_eq_formatI (i : Instr) : encode i = formatI i.source i.funct3 (destination i) := by
  cases i <;> rfl

theorem wf_iff (i : Instr) : i.wf = true ↔ destination i < 32 ∧ i.source < 32 := by
  cases i <;> simp [Instr.wf, fitsFiveBits, destination, Instr.source]

/-- `funct3` and the two operand fields determine what a word of the format decodes to, and nothing else does. -/
theorem decodeFunct3_eq_instr_iff (w : Insn) (i : Instr) :
    decodeFunct3 w = .instr i ↔
      funct3Of w = i.funct3 ∧ (rdOf w).toNat = destination i ∧ (rs1Of w).toNat = i.source := by
  constructor
  · intro h
    unfold decodeFunct3 at h
    split at h
    case h_7 => cases h
    all_goals
      rename_i hfunct3
      cases h
      exact ⟨BitVec.eq_of_toNat_eq hfunct3, rfl, rfl⟩
  · rintro ⟨hfunct3, hrd, hsource⟩
    cases i <;> simp [decodeFunct3, hfunct3, hrd, hsource, Instr.funct3, destination, Instr.source]

/-- A word decodes to an instruction exactly when each of its five fields is that instruction's. -/
theorem decode_eq_instr_iff (w : Insn) (i : Instr) :
    decode w = .instr i ↔ (opcodeOf w = opcodeSystem ∧ csrOf w = csrPmpcfg0 ∧ funct3Of w = i.funct3) ∧
      (rdOf w).toNat = destination i ∧ (rs1Of w).toNat = i.source := by
  constructor
  · intro h
    obtain ⟨hopcode, hcsr, hrow⟩ := decode_instr_fields w i h
    obtain ⟨hfunct3, hoperands⟩ := (decodeFunct3_eq_instr_iff w i).mp hrow
    exact ⟨⟨hopcode, hcsr, hfunct3⟩, hoperands⟩
  · rintro ⟨⟨hopcode, hcsr, hfunct3⟩, hoperands⟩
    rw [decode_of_fields w hopcode hcsr]
    exact (decodeFunct3_eq_instr_iff w i).mpr ⟨hfunct3, hoperands⟩

/-- Settles O1: the fields of the instruction's word are its own, an operand below 32 fitting its five bits. -/
theorem decodeEncodeIsIdentity : Obligations.DecodeEncodeIsIdentity := by
  intro i hwf
  obtain ⟨hrd, hsource⟩ := (wf_iff i).mp hwf
  refine (decode_eq_instr_iff (encode i) i).mpr ?_
  simp [encode_eq_formatI, Nat.mod_eq_of_lt hrd, Nat.mod_eq_of_lt hsource]

/-- A word with the opcode and the CSR address of the format is the format of its other three fields. -/
theorem eq_formatI_of_fields (w : Insn) (hopcode : opcodeOf w = opcodeSystem) (hcsr : csrOf w = csrPmpcfg0) :
    w = formatI (rs1Of w).toNat (funct3Of w) (rdOf w).toNat := by
  have hfields := insn_of_fields w
  rw [hopcode, hcsr] at hfields
  simpa [formatI] using hfields.symm

/-- Settles O2: the operands are numbers of five-bit fields, and the word is the format of its fields. -/
theorem encodeDecodeIsIdentity : Obligations.EncodeDecodeIsIdentity := by
  intro w i h
  obtain ⟨⟨hopcode, hcsr, hfunct3⟩, hrd, hsource⟩ := (decode_eq_instr_iff w i).mp h
  constructor
  · exact (wf_iff i).mpr ⟨hrd ▸ (rdOf w).isLt, hsource ▸ (rs1Of w).isLt⟩
  · rw [encode_eq_formatI, ← hrd, ← hsource, ← hfunct3, ← eq_formatI_of_fields w hopcode hcsr]

/-! ## The mask of the opcode map -/

/-- A field on which a mask is all ones is kept by the mask. -/
theorem extractLsb'_and_of_allOnes (w mask : Insn) {start len : Nat}
    (h : mask.extractLsb' start len = BitVec.allOnes len) :
    (w &&& mask).extractLsb' start len = w.extractLsb' start len := by
  rw [BitVec.extractLsb'_and, h, BitVec.and_allOnes]

theorem opcodeOf_masked (w : Insn) : opcodeOf (w &&& 0xFFF0707F) = opcodeOf w :=
  extractLsb'_and_of_allOnes w _ (by decide)

theorem csrOf_masked (w : Insn) : csrOf (w &&& 0xFFF0707F) = csrOf w :=
  extractLsb'_and_of_allOnes w _ (by decide)

theorem funct3Of_masked (w : Insn) : funct3Of (w &&& 0xFFF0707F) = funct3Of w :=
  extractLsb'_and_of_allOnes w _ (by decide)

/-- The word of an instruction has its row's match under the mask. -/
theorem encode_masked (i : Instr) : encode i &&& 0xFFF0707F = Laws.EncodedRow.matchOf i :=
  match i with
  | .csrrw rd rs1 => Laws.EncodedRow.csrrw rd rs1
  | .csrrs rd rs1 => Laws.EncodedRow.csrrs rd rs1
  | .csrrc rd rs1 => Laws.EncodedRow.csrrc rd rs1
  | .csrrwi rd uimm => Laws.EncodedRow.csrrwi rd uimm
  | .csrrsi rd uimm => Laws.EncodedRow.csrrsi rd uimm
  | .csrrci rd uimm => Laws.EncodedRow.csrrci rd uimm

/-- A word has a row's match under the mask exactly when the fields the decoder tests are the row's. -/
theorem masked_eq_matchOf_iff (w : Insn) (i : Instr) :
    w &&& 0xFFF0707F = Laws.EncodedRow.matchOf i ↔
      opcodeOf w = opcodeSystem ∧ csrOf w = csrPmpcfg0 ∧ funct3Of w = i.funct3 := by
  rw [← encode_masked, encode_eq_formatI]
  constructor
  · intro h
    rw [← opcodeOf_masked w, ← csrOf_masked w, ← funct3Of_masked w, h, opcodeOf_masked, csrOf_masked, funct3Of_masked]
    simp
  · rintro ⟨hopcode, hcsr, hfunct3⟩
    rw [eq_formatI_of_fields w hopcode hcsr, hfunct3, Laws.EncodedRow.formatI_masked,
      ← Laws.EncodedRow.formatI_masked i.source]

/-- The operand fields as numbers (30_encoding.md R96). -/
theorem rdOf_toNat (w : Insn) : (rdOf w).toNat = w.toNat / 2 ^ 7 % 32 := by
  rw [rdOf, BitVec.extractLsb'_toNat, Nat.shiftRight_eq_div_pow]

theorem rs1Of_toNat (w : Insn) : (rs1Of w).toNat = w.toNat / 2 ^ 15 % 32 := by
  rw [rs1Of, BitVec.extractLsb'_toNat, Nat.shiftRight_eq_div_pow]

/-- With the operands read off the word, decoding to a row is having its match under the mask. -/
theorem masked_eq_matchOf_iff_decode (w : Insn) (i : Instr) (hrd : destination i = w.toNat / 2 ^ 7 % 32)
    (hsource : i.source = w.toNat / 2 ^ 15 % 32) :
    w &&& 0xFFF0707F = Laws.EncodedRow.matchOf i ↔ decode w = .instr i := by
  rw [masked_eq_matchOf_iff, decode_eq_instr_iff, rdOf_toNat, rs1Of_toNat, hrd, hsource]
  simp only [and_true]

/-- Settles O3, row by row. -/
theorem decodeFollowsTheOpcodeMap : Obligations.DecodeFollowsTheOpcodeMap := fun w =>
  ⟨masked_eq_matchOf_iff_decode w (.csrrw ..) rfl rfl, masked_eq_matchOf_iff_decode w (.csrrs ..) rfl rfl,
    masked_eq_matchOf_iff_decode w (.csrrc ..) rfl rfl, masked_eq_matchOf_iff_decode w (.csrrwi ..) rfl rfl,
    masked_eq_matchOf_iff_decode w (.csrrsi ..) rfl rfl, masked_eq_matchOf_iff_decode w (.csrrci ..) rfl rfl⟩

end Sys2Proof
end

section
/-! A fetched word outside the opcode map (30_encoding.md R98), and a word placed at the pc (log 20). -/

namespace Sys2Proof.Machine

theorem runInstruction_of_rejected (s : State) (w : Insn) (why : DecodeError)
    (hc : checkAccess s .fetch s.priv s.insnAddr 4 = .permitted) (hw : s.wordAtPc = some w)
    (hd : decode w = .rejected why) : runInstruction s = .refused (.outsideOpcodeMap why) := by
  obtain ⟨bytes, hread, hbytes⟩ := readAll_of_wordAtPc s w hw
  simp only [runInstruction, hc, hread, hbytes, hd]

/-- Settles O31: a word that decoded would have the match of its row. -/
theorem wordsOutsideTheMapAreRefused : Obligations.WordsOutsideTheMapAreRefused := by
  intro s w hnext hc hw hcsrrw hcsrrs hcsrrc hcsrrwi hcsrrsi hcsrrci
  cases hd : decode w with
  | instr i =>
    have hmatch : w &&& 0xFFF0707F = Laws.EncodedRow.matchOf i :=
      (masked_eq_matchOf_iff w i).mpr ((decode_eq_instr_iff w i).mp hd).1
    cases i with
    | csrrw => exact absurd hmatch hcsrrw
    | csrrs => exact absurd hmatch hcsrrs
    | csrrc => exact absurd hmatch hcsrrc
    | csrrwi => exact absurd hmatch hcsrrwi
    | csrrsi => exact absurd hmatch hcsrrsi
    | csrrci => exact absurd hmatch hcsrrci
  | rejected why =>
    refine ⟨why, ?_⟩
    rw [step_of_instructionNext s hnext]
    exact runInstruction_of_rejected s.dropMove w why hc hw hd

/-- No entry matches an access in a placed state, as its parameters list no region. -/
theorem placeInsn_meaningless (s : State) (w : Insn) (n : Nat) (v : Byte) (addr : Addr) (nbytes : Nat) :
    meaningless (placeInsn s w).params n v addr nbytes = false := rfl

/-- The parameters of a placed state match no entry and combine to no fault, so every access passes. -/
theorem placeInsn_checkAccess (s : State) (w : Insn) (c : AccessClass) (priv : Priv) (addr : Addr) (nbytes : Nat) :
    checkAccess (placeInsn s w) c priv addr nbytes = .permitted := by
  have hmeaning : (List.finRange 8).find? (fun n : Fin 8 =>
      meaningless (placeInsn s w).params n (placeInsn s w).cfg[n] addr nbytes) = none :=
    List.find?_eq_none.mpr fun n _ => by simp [placeInsn_meaningless]
  have hcombine : ∀ vs, pmpCombine (placeInsn s w).params priv vs = .noFault := fun _ => rfl
  simp only [checkAccess, hmeaning, hcombine]

theorem placeInsn_insnByte (s : State) (w : Insn) (k : Nat) : (placeInsn s w).insnByte k = ⟨s.pc + k⟩ := rfl

/-- The four addresses a placed word is fetched from differ, so all its bytes read back. -/
theorem placeInsn_wordAtPc (s : State) (w : Insn) : (placeInsn s w).wordAtPc = some w := by
  refine wordAtPc_of_bytes _ w fun k hk => ?_
  have hread := Memory.read_writeAll_map s.mem (fun j => ⟨s.pc + j⟩) (List.range 4) (bytesOfInsn w) k rfl
    (by simpa using hk) fun j hkj _ => by simp only [List.getElem_range, ne_eq, Addr.mk.injEq]; omega
  rw [List.getElem_range] at hread
  exact hread

/-- Settles O33: a placed state meets the hypotheses of `stepRunsTheDecodedInstruction`, and has no move to lose. -/
theorem aPlacedWordIsTheNextInstruction : Obligations.APlacedWordIsTheNextInstruction := by
  intro s w i hd
  have htable : tableInsn 32 w = BitVec.ofNat 32 w := BitVec.eq_of_toNat_eq (by simp [tableInsn])
  have hstep : step (s.withFetchWord 32 w) = exec i (s.withFetchWord 32 w) :=
    stepRunsTheDecodedInstruction _ _ i rfl (placeInsn_checkAccess ..) (placeInsn_wordAtPc ..) (htable ▸ hd)
  exact ⟨hstep, rfl, rfl, rfl, rfl, rfl⟩

end Sys2Proof.Machine
end

section
/-! What a write can store in a field that holds 0 (30_encoding.md R94). -/

namespace Sys2Proof.Machine

/-- An accepted value that agrees with the old one on bits 6:5 is stored as attempted. -/
theorem acceptedValue_of_reservedBits (old new : Byte) (h : reservedBits new = reservedBits old) :
    acceptedValue old new = new := by
  have hbit : ∀ k, k < 2 → old.getLsbD (5 + k) = new.getLsbD (5 + k) := fun k hk => by
    simpa [reservedBits, hk] using congrArg (BitVec.getLsbD · k) h.symm
  have h5 : old[5] = new[5] := hbit 0 (by decide)
  have h6 : old[6] = new[6] := hbit 1 (by decide)
  ext i hi
  interval_cases i <;> simp [acceptedValue, h5, h6]

/-- A legal value passes the three tests of a field that holds 0, and is stored as it is. -/
theorem writeField_zero_of_legal (g : Int) (v : Byte) (h : legal g v = true) : writeField g 0 v = v := by
  obtain ⟨hperms, hmode, hreserved⟩ := (legal_iff g v).mp h
  rw [writeField_accepted g 0 v rfl hperms hmode]
  exact acceptedValue_of_reservedBits 0 v hreserved

/-- Settles O7: a write keeps the legality of 0, and a legal value is stored when it is attempted itself. -/
theorem storedValuesAreExactlyTheLegalOnes : Obligations.StoredValuesAreExactlyTheLegalOnes := by
  intro g v
  constructor
  · rintro ⟨new, rfl⟩
    exact legal_writeField g 0 new (legal_zero g)
  · exact fun h => ⟨v, writeField_zero_of_legal g v h⟩

end Sys2Proof.Machine
end

section
/-! The operand forms (30_encoding.md R96, decision 92 D10, log 16). -/

namespace Sys2Proof.Machine

theorem readReg_w64 (r : Fin 32) (s : State) (h : r.val ≠ 0) : readReg .w64 r s = s.x[r].hi ++ s.x[r].lo := by
  simp [readReg, h]

theorem readReg_w32 (r : Fin 32) (s : State) (h : r.val ≠ 0) : readReg .w32 r s = s.x[r].lo.setWidth 64 := by
  simp [readReg, h]

/-- A five-bit immediate is the number it is written as. -/
theorem immediate_of_lt (u : Nat) (h : u < 32) : immediate u = BitVec.ofNat 64 u := by
  apply BitVec.eq_of_toNat_eq
  simp only [immediate, BitVec.toNat_setWidth, BitVec.toNat_ofNat]
  omega

/-- Settles O18. -/
theorem operandsAreReadAtTheCurrentLength : Obligations.OperandsAreReadAtTheCurrentLength := fun s r len v u =>
  ⟨readReg_zero len s, writeReg_zero len v s, fun h => ⟨readReg_w64 r s h, readReg_w32 r s h⟩, immediate_of_lt u⟩

end Sys2Proof.Machine
end

section
/-! One field write against the bits of the two values, and what the stored value makes of a second write
(40_csr_access.md R113, R115). -/

namespace Sys2Proof.Machine

theorem reservedPerms_iff (v : Byte) : reservedPerms v = true ↔ v.getLsbD 0 = false ∧ v.getLsbD 1 = true := by
  simp [reservedPerms, rBit, wBit]

theorem invalidMode_iff (g : Int) (v : Byte) : invalidMode g v = true ↔ 2 ≤ g ∧ v.extractLsb' 3 2 = 2 := by
  have hna4 : addrMode v = .na4 ↔ v.extractLsb' 3 2 = 2 := by
    rw [addrMode_eq]
    generalize v.extractLsb' 3 2 = modeBits
    revert modeBits
    decide
  simp [invalidMode, hna4]

/-- An accepted value takes bit 7 from the attempted value. -/
@[simp] theorem lockBit_acceptedValue (old new : Byte) : lockBit (acceptedValue old new) = lockBit new := by
  simp [lockBit, acceptedValue]

@[simp] theorem acceptedValue_self (v : Byte) : acceptedValue v v = v :=
  acceptedValue_of_reservedBits v v rfl

/-- Bits 6:5 being the old ones, accepting a value a second time stores the same. -/
@[simp] theorem acceptedValue_acceptedValue (old new : Byte) :
    acceptedValue (acceptedValue old new) new = acceptedValue old new := by
  ext i hi
  interval_cases i <;> simp [acceptedValue]

/-- `writeField_cases` with the accepted value by its name. -/
theorem writeField_eq_or_accepted (g : Int) (old new : Byte) :
    writeField g old new = old ∨ writeField g old new = acceptedValue old new := by
  rcases writeField_cases g old new with kept | ⟨-, -, -, accepted⟩
  · exact .inl kept
  · exact .inr accepted

/-- A field to which its own value is written keeps it, rejected or accepted. -/
theorem writeField_self (g : Int) (v : Byte) : writeField g v v = v := by
  rcases writeField_eq_or_accepted g v v with kept | accepted
  · exact kept
  · rw [accepted, acceptedValue_self]

theorem writeField_idempotent (g : Int) (old new : Byte) :
    writeField g (writeField g old new) new = writeField g old new := by
  rcases writeField_eq_or_accepted g old new with kept | accepted
  · rw [kept, kept]
  · rw [accepted]
    rcases writeField_eq_or_accepted g (acceptedValue old new) new with kept' | accepted'
    · exact kept'
    · rw [accepted', acceptedValue_acceptedValue]

theorem lockBit_writeField (g : Int) (old new : Byte) (h : lockBit new = lockBit old) :
    lockBit (writeField g old new) = lockBit old := by
  rcases writeField_eq_or_accepted g old new with kept | accepted
  · rw [kept]
  · rw [accepted, lockBit_acceptedValue, h]

/-- Settles O5: the three tests in terms of the bits. -/
theorem writeFieldFollowsItsThreeTests : Obligations.WriteFieldFollowsItsThreeTests := by
  intro g old new
  refine ⟨writeField_locked g old new, fun h => ?_, fun h => ?_, fun hlock hperms hmode => ?_⟩
  · exact writeField_reservedPerms g old new ((reservedPerms_iff new).mpr h)
  · exact writeField_invalidMode g old new ((invalidMode_iff g new).mpr h)
  · rw [← reservedPerms_iff, Bool.not_eq_true] at hperms
    rw [← invalidMode_iff, Bool.not_eq_true] at hmode
    exact writeField_accepted g old new hlock hperms hmode

/-! ## The source's own function -/

/-! The source's masks ask for the same bits as the model's three tests. -/

theorem sourceLockTest_iff (v : Byte) : v &&& 0x80 = 0 ↔ lockBit v = false := by
  revert v
  decide

theorem sourcePermsTest_iff (v : Byte) : v &&& 0x1 = 0 ∧ v &&& 0x2 = 0x2 ↔ reservedPerms v = true := by
  revert v
  decide

theorem sourceModeTest_iff (v : Byte) : v &&& 0x18 = 0x10 ↔ v.extractLsb' 3 2 = 2 := by
  revert v
  decide

/-- The source's function in terms of the model's tests: the old value if one fails, else the attempted value whole. -/
theorem sourceWriteField_eq (g : Int) (old new : Byte) :
    sourceWriteField g old new =
      if lockBit old = false ∧ reservedPerms new = false ∧ invalidMode g new = false then new else old := by
  have hmode : (g < 2 ∨ new &&& 0x18 ≠ 0x10) ↔ invalidMode g new = false := by
    rw [← Bool.not_eq_true, invalidMode_iff, ← sourceModeTest_iff, not_and_or, Int.not_le]
  simp only [sourceWriteField, sourceLockTest_iff, sourcePermsTest_iff, hmode, Bool.not_eq_true, ite_and]

/-- Settles O6, by the cases of `writeField_cases`, the result read as `acceptedValue` of the old value and what the
source returns. -/
theorem writeFieldRefinesTheSourceFunction : Obligations.WriteFieldRefinesTheSourceFunction := by
  intro g old new
  show writeField g old new = acceptedValue old (sourceWriteField g old new)
  rw [sourceWriteField_eq]
  split
  · rename_i passes
    obtain ⟨hlock, hperms, hmode⟩ := passes
    exact writeField_accepted g old new hlock hperms hmode
  · rename_i fails
    rw [acceptedValue_self]
    rcases writeField_cases g old new with kept | ⟨hlock, hperms, hmode, -⟩
    · exact kept
    · exact absurd ⟨hlock, hperms, hmode⟩ fails

/-- Settles O9. -/
theorem legalityIsKeptByAFieldWrite : Obligations.LegalityIsKeptByAFieldWrite := legal_writeField

/-- Settles O10: in each case the attempted value fails the second or the third test. -/
theorem setAndClearCanBeDropped : Obligations.SetAndClearCanBeDropped := by
  intro g old
  refine ⟨fun hw => ?_, fun hr => ?_, fun hg hoff => ?_⟩
  · exact writeField_reservedPerms g old _ ((reservedPerms_iff _).mpr (by simpa using hw))
  · exact writeField_reservedPerms g old _ ((reservedPerms_iff _).mpr (by simpa using hr))
  · have hna4 : (old ||| 0x10).extractLsb' 3 2 = 2 := by
      rw [BitVec.extractLsb'_or, hoff]
      decide
    exact writeField_invalidMode g old _ ((invalidMode_iff g _).mpr ⟨hg, hna4⟩)

/-- Settles O11: 0x9F is legal at every granularity, its mode being NAPOT; and 0 passes the second and third test. -/
theorem lockingAndClearingAnUnlockedField : Obligations.LockingAndClearingAnUnlockedField := by
  intro g old
  refine ⟨writeField_zero_of_legal g 0x9F ?_, fun hlock => ?_⟩
  · exact (legal_iff g 0x9F).mpr ⟨by decide, by simp [invalidMode, addrMode], by decide⟩
  · rw [writeField_accepted g old 0 hlock (by decide) (by simp [invalidMode, addrMode])]
    simp

end Sys2Proof.Machine
end

section
/-! READ and WRITE, field by field (40_csr_access.md R110 to R117). -/

namespace Sys2Proof.Machine

theorem lt_fieldCount_iff (len : Len) (n : Fin 8) : n.val < fieldCount len ↔ inFormat len n := by
  cases len with
  | w32 => simp [fieldCount, inFormat]
  | w64 => simp [fieldCount, inFormat]

theorem storeField_eq (p : Params) (n : Fin 8) (old new : Byte) :
    storeField p n old new = if implemented p n then writeField p.pmpGranularity old new else old := by
  split
  · rename_i himp
    exact storeField_implemented p n old new himp
  · rename_i hun
    exact storeField_unimplemented p n old new (Nat.not_lt.mp hun)

theorem writeCsr_fieldsAfterWrite (len : Len) (v : Word) (s : State) : fieldsAfterWrite len v s (writeCsr len v s) := by
  intro n
  rw [writeCsr_field, storeField_eq]
  simp only [lt_fieldCount_iff, ite_and]
  rfl

theorem writeCsr_sameSurroundings (len : Len) (v : Word) (s : State) : SameSurroundings s (writeCsr len v s) :=
  ⟨rfl, rfl, rfl, rfl, rfl, rfl⟩

/-- A field that `writeField` would keep is kept by the WRITE, in the format or not, implemented or not. -/
theorem writeCsr_field_of_kept (len : Len) (v : Word) (s : State) (n : Fin 8)
    (h : inFormat len n → writeField s.params.pmpGranularity s.cfg[n] (v.extractLsb' (8 * n.val) 8) = s.cfg[n]) :
    (writeCsr len v s).cfg[n] = s.cfg[n] := by
  rw [writeCsr_fieldsAfterWrite len v s n]
  split
  · rename_i written
    obtain ⟨hin, -⟩ := written
    exact h hin
  · rfl

/-- A WRITE that keeps every field keeps the state. -/
theorem writeCsr_eq_self (len : Len) (v : Word) (s : State) (h : ∀ n : Fin 8, (writeCsr len v s).cfg[n] = s.cfg[n]) :
    writeCsr len v s = s := by
  have hcfg : (writeCsr len v s).cfg = s.cfg := Vector.ext fun k hk => h ⟨k, hk⟩
  calc writeCsr len v s
    _ = s.setCfg (writeCsr len v s).cfg := rfl
    _ = s := by rw [hcfg, State.setCfg_self]

theorem readCsr_byte (len : Len) (s : State) (n : Fin 8) (h : inFormat len n) :
    (readCsr len s).extractLsb' (8 * n.val) 8 = s.cfg[n] := by
  obtain ⟨hbyte, -⟩ := readReturnsTheFieldsOfTheFormat len s
  exact hbyte n h

/-- A field of the format whose byte is written as it was read is kept. -/
theorem writeCsr_field_of_byte_read (len : Len) (v : Word) (s : State) (n : Fin 8)
    (h : inFormat len n → v.extractLsb' (8 * n.val) 8 = (readCsr len s).extractLsb' (8 * n.val) 8) :
    (writeCsr len v s).cfg[n] = s.cfg[n] := by
  refine writeCsr_field_of_kept len v s n fun hin => ?_
  rw [h hin, readCsr_byte len s n hin, writeField_self]

/-- Settles O13: the byte read is the field, which the invariant keeps at 0. -/
theorem unimplementedFieldsReadAsZero : Obligations.UnimplementedFieldsReadAsZero := by
  intro len s n hinv hin hun
  obtain ⟨-, hzero⟩ := hinv n
  rw [readCsr_byte len s n hin, hzero hun]

/-- Settles O14. -/
theorem writeStoresEachFieldOfTheFormat : Obligations.WriteStoresEachFieldOfTheFormat := fun len v s =>
  ⟨writeCsr_fieldsAfterWrite len v s, writeCsr_sameSurroundings len v s, rfl, rfl, rfl⟩

/-- Settles O15: the field after the write is an expression of the parameters, the field and the byte. -/
theorem fieldsAreWrittenIndependently : Obligations.FieldsAreWrittenIndependently := by
  intro len v w s t n hparams hfield hbyte
  rw [writeCsr_fieldsAfterWrite len v s n, writeCsr_fieldsAfterWrite len w t n, hparams, hfield, hbyte]

/-- Settles O16: every byte is written as it was read, and `writeField` keeps a field's own value, legal or not. -/
theorem writingBackWhatWasReadChangesNothing : Obligations.WritingBackWhatWasReadChangesNothing := by
  intro len s _
  exact writeCsr_eq_self len _ s fun n => writeCsr_field_of_byte_read len _ s n fun _ => rfl

/-- Settles O17: each written field holds what `writeField` keeps under a second write of the same byte. -/
theorem writeIsIdempotent : Obligations.WriteIsIdempotent := by
  intro len v s
  refine writeCsr_eq_self len v _ fun n => ?_
  have hfield := writeCsr_fieldsAfterWrite len v s n
  by_cases written : inFormat len n ∧ implemented s.params n
  · rw [if_pos written] at hfield
    refine writeCsr_field_of_kept len v _ n fun _ => ?_
    rw [hfield, writeCsr_params, writeField_idempotent]
  · rw [writeCsr_fieldsAfterWrite len v (writeCsr len v s) n, writeCsr_params, if_neg written]

end Sys2Proof.Machine
end

section
/-! The six instructions (40_csr_access.md R116, R118 to R123): in M-mode, where MXL gives a length, each completes with
its write or with the write suppressed; in any other mode each raises. -/

namespace Sys2Proof.Machine

theorem lenOfMxl_of_formatAt (mxl : Int) (len : Len) (h : formatAt mxl len) : lenOfMxl mxl = some len := by
  rcases h with ⟨rfl, rfl⟩ | ⟨rfl, rfl⟩
  · rfl
  · rfl

/-- `x[rd] <- t`, register by register. -/
theorem writeReg_registerWritten (len : Len) (rd : Nat) (v : Word) (s : State) :
    registerWritten len rd v s (writeReg len rd v s) := by
  refine ⟨fun r hr => writeReg_x_other len rd v s r hr, fun r hr hrd => ?_⟩
  subst hr
  rw [writeReg_x_self len v s r hrd]
  refine ⟨rfl, fun hlen => ?_⟩
  subst hlen
  rfl

/-- Completing an instruction after a change of the fields alone leaves what a completed access leaves. -/
theorem complete_accessCompleted (len : Len) (rd : Nat) (s u : State) (hx : u.x = s.x) (hpc : u.pc = s.pc)
    (hs : SameSurroundings s u) : accessCompleted len rd s (complete len rd (readCsr len s) u) := by
  refine ⟨?_, by rw [complete_pc, hpc], ?_⟩
  · have hwritten := writeReg_registerWritten len rd (readCsr len s) u
    simp only [registerWritten, hx] at hwritten
    exact hwritten
  · obtain ⟨hmem, hpriv, hmxl, hraised, hagenda, hparams⟩ := hs
    exact ⟨by simpa, by simpa, by simpa, by simpa, by simpa, by simpa⟩

theorem complete_writeCsr_accessCompleted (len : Len) (rd : Nat) (v : Word) (s : State) :
    accessCompleted len rd s (complete len rd (readCsr len s) (writeCsr len v s)) :=
  complete_accessCompleted len rd s _ rfl rfl (writeCsr_sameSurroundings len v s)

theorem complete_self_accessCompleted (len : Len) (rd : Nat) (s : State) :
    accessCompleted len rd s (complete len rd (readCsr len s) s) :=
  complete_accessCompleted len rd s s rfl rfl ⟨rfl, rfl, rfl, rfl, rfl, rfl⟩

theorem complete_writeCsr_fieldsAfterWrite (len : Len) (rd : Nat) (t v : Word) (s : State) :
    fieldsAfterWrite len v s (complete len rd t (writeCsr len v s)) := by
  intro n
  rw [complete_cfg]
  exact writeCsr_fieldsAfterWrite len v s n

section
variable {s : State} {len : Len} (hpriv : s.priv = .m) (hformat : formatAt s.mxl len)
include hpriv hformat

/-- An instruction that always writes. -/
theorem csrAccess_write (i : Instr) (rd : Nat) (v : Len → Word) :
    ∃ t, csrAccess i s (fun len => complete len rd (readCsr len s) (writeCsr len (v len) s)) = .next t ∧
      fieldsAfterWrite len (v len) s t ∧ accessCompleted len rd s t :=
  ⟨_, csrAccess_machine i s _ len hpriv (lenOfMxl_of_formatAt s.mxl len hformat),
    complete_writeCsr_fieldsAfterWrite len rd _ _ s, complete_writeCsr_accessCompleted len rd _ s⟩

/-- An instruction whose write is suppressed when its source operand, a register number or an immediate, is 0. -/
theorem csrAccess_writeUnlessZero (i : Instr) (rd source : Nat) (v : Len → Word) :
    ∃ t, csrAccess i s (fun len => complete len rd (readCsr len s)
        (if source = 0 then s else writeCsr len (v len) s)) = .next t ∧
      (source = 0 → t.cfg = s.cfg) ∧ (source ≠ 0 → fieldsAfterWrite len (v len) s t) ∧
      accessCompleted len rd s t := by
  refine ⟨_, csrAccess_machine i s _ len hpriv (lenOfMxl_of_formatAt s.mxl len hformat), ?_⟩
  by_cases hzero : source = 0
  · rw [if_pos hzero]
    exact ⟨fun _ => complete_cfg .., fun h => absurd hzero h, complete_self_accessCompleted len rd s⟩
  · rw [if_neg hzero]
    exact ⟨fun h => absurd h hzero, fun _ => complete_writeCsr_fieldsAfterWrite len rd _ _ s,
      complete_writeCsr_accessCompleted len rd _ s⟩

end

/-- Settles O19. -/
theorem csrrwSwapsRegisterAndPmpcfg0 : Obligations.CsrrwSwapsRegisterAndPmpcfg0 := by
  intro rd rs1 s len _ _ hpriv hformat
  exact csrAccess_write hpriv hformat (.csrrw rd rs1) rd fun len => readReg len rs1 s

/-- Settles O20. -/
theorem csrrsSetsBitsUnlessRs1IsX0 : Obligations.CsrrsSetsBitsUnlessRs1IsX0 := by
  intro rd rs1 s len _ _ hpriv hformat
  exact csrAccess_writeUnlessZero hpriv hformat (.csrrs rd rs1) rd rs1 fun len => readCsr len s ||| readReg len rs1 s

/-- Settles O21. -/
theorem csrrcClearsBitsUnlessRs1IsX0 : Obligations.CsrrcClearsBitsUnlessRs1IsX0 := by
  intro rd rs1 s len _ _ hpriv hformat
  exact csrAccess_writeUnlessZero hpriv hformat (.csrrc rd rs1) rd rs1
    fun len => readCsr len s &&& ~~~(readReg len rs1 s)

/-- Settles O22. -/
theorem csrrwiWritesTheImmediate : Obligations.CsrrwiWritesTheImmediate := by
  intro rd uimm s len _ huimm hpriv hformat
  rw [← immediate_of_lt uimm huimm]
  exact csrAccess_write hpriv hformat (.csrrwi rd uimm) rd fun _ => immediate uimm

/-- Settles O23. -/
theorem csrrsiSetsBitsUnlessTheImmediateIsZero : Obligations.CsrrsiSetsBitsUnlessTheImmediateIsZero := by
  intro rd uimm s len _ huimm hpriv hformat
  rw [← immediate_of_lt uimm huimm]
  exact csrAccess_writeUnlessZero hpriv hformat (.csrrsi rd uimm) rd uimm fun len => readCsr len s ||| immediate uimm

/-- Settles O24. -/
theorem csrrciClearsBitsUnlessTheImmediateIsZero : Obligations.CsrrciClearsBitsUnlessTheImmediateIsZero := by
  intro rd uimm s len _ huimm hpriv hformat
  rw [← immediate_of_lt uimm huimm]
  exact csrAccess_writeUnlessZero hpriv hformat (.csrrci rd uimm) rd uimm
    fun len => readCsr len s &&& ~~~(immediate uimm)

/-- Settles O26: each of the six is an access to the register, and its privilege test fails. -/
theorem outsideMModeIllegalInstructionIsRaised : Obligations.OutsideMModeIllegalInstructionIsRaised := by
  intro i s hpriv
  obtain ⟨effect, hexec⟩ := exec_eq_csrAccess i s
  rw [hexec]
  exact csrAccess_other i s effect hpriv

end Sys2Proof.Machine
end

section
/-! The immediate reaches bits 4:0 only (30_encoding.md R96), so a set or clear by it writes the other bits back as they
were read. -/

namespace Sys2Proof.Machine

theorem immediate_getLsbD (u k : Nat) (h : 5 ≤ k) : (immediate u).getLsbD k = false := by
  simp [immediate, BitVec.getLsbD_of_ge _ k h]

/-- `v` has the bits of `w` from bit 5 upward. -/
def AgreeAboveImmediate (v w : Word) : Prop := ∀ k, 5 ≤ k → v.getLsbD k = w.getLsbD k

theorem agreeAboveImmediate_set (v : Word) (u : Nat) : AgreeAboveImmediate (v ||| immediate u) v := by
  intro k hk
  simp [immediate_getLsbD u k hk]

theorem agreeAboveImmediate_clear (v : Word) (u : Nat) : AgreeAboveImmediate (v &&& ~~~(immediate u)) v := by
  intro k hk
  rw [BitVec.getLsbD_and, BitVec.getLsbD_not, immediate_getLsbD u k hk]
  by_cases hlt : k < 64
  · simp [hlt]
  · simp [BitVec.getLsbD_of_ge v k (Nat.not_lt.mp hlt)]

theorem AgreeAboveImmediate.byte {v w : Word} (h : AgreeAboveImmediate v w) (n : Nat) (hn : n ≠ 0) :
    v.extractLsb' (8 * n) 8 = w.extractLsb' (8 * n) 8 := by
  ext j hj
  rw [BitVec.getElem_extractLsb', BitVec.getElem_extractLsb', h _ (by omega)]

theorem AgreeAboveImmediate.lockBit {v w : Word} (h : AgreeAboveImmediate v w) :
    lockBit (v.extractLsb' 0 8) = lockBit (w.extractLsb' 0 8) := by
  simp only [Machine.lockBit, BitVec.getLsbD_extractLsb', h (0 + 7) (by decide)]

/-- Writing a value that agrees with the one read from bit 5 upward keeps every field but field 0, and L of field 0. -/
theorem writeCsr_of_agreeAboveImmediate (len : Len) (v : Word) (s : State)
    (h : AgreeAboveImmediate v (readCsr len s)) :
    (∀ n : Fin 8, n.val ≠ 0 → (writeCsr len v s).cfg[n] = s.cfg[n]) ∧
      lockBit (writeCsr len v s).cfg[(0 : Fin 8)] = lockBit s.cfg[(0 : Fin 8)] := by
  refine ⟨fun n hn => writeCsr_field_of_byte_read len v s n fun _ => h.byte n.val hn, ?_⟩
  rw [writeCsr_fieldsAfterWrite len v s 0]
  split
  · rename_i written
    obtain ⟨hin, -⟩ := written
    exact lockBit_writeField _ _ _ (h.lockBit.trans (congrArg lockBit (readCsr_byte len s 0 hin)))
  · rfl

/-- What `csrrsi` and `csrrci` share: their write is suppressed or agrees with the value read from bit 5 upward. -/
theorem exec_immediate_set_or_clear (i : Instr) (rd uimm : Nat) (s t : State)
    (hi : i = .csrrsi rd uimm ∨ i = .csrrci rd uimm) (hpriv : s.priv = .m) (h : exec i s = .next t) :
    t.cfg = s.cfg ∨ ∃ len v, AgreeAboveImmediate v (readCsr len s) ∧ t.cfg = (writeCsr len v s).cfg := by
  rcases hi with rfl | rfl
  · rcases csrAccess_next _ _ _ _ h with ⟨-, len, -, rfl⟩ | ⟨hother, -⟩
    · split
      · exact .inl (complete_cfg ..)
      · exact .inr ⟨len, _, agreeAboveImmediate_set _ uimm, complete_cfg ..⟩
    · exact absurd hpriv hother
  · rcases csrAccess_next _ _ _ _ h with ⟨-, len, -, rfl⟩ | ⟨hother, -⟩
    · split
      · exact .inl (complete_cfg ..)
      · exact .inr ⟨len, _, agreeAboveImmediate_clear _ uimm, complete_cfg ..⟩
    · exact absurd hpriv hother

/-- Settles O25; the fields hold what they held, whether the invariant allows it or not. -/
theorem immediateSetAndClearReachFieldZeroOnly : Obligations.ImmediateSetAndClearReachFieldZeroOnly := by
  intro i rd uimm s t hi _ hpriv h
  rcases exec_immediate_set_or_clear i rd uimm s t hi hpriv h with kept | ⟨len, v, hagree, written⟩
  · exact ⟨fun n _ => by rw [kept], by rw [kept]⟩
  · rw [written]
    exact writeCsr_of_agreeAboveImmediate len v s hagree

end Sys2Proof.Machine
end

section
/-! Steps and runs: which register a step can change (decisions 92 D1 and D10), and a lock along a run without a reset
(40_csr_access.md R115 (a), 70 R171). -/

namespace Sys2Proof.Machine

theorem performAccess_x (a : Access) (s t : State) (h : performAccess a s = .next t) : t.x = s.x := by
  rcases performAccess_next a s t h with ⟨-, rfl⟩ | ⟨-, rfl⟩
  · rfl
  · rfl

/-- An instruction changes a register in M-mode only, and only its destination, which is not x[0]. -/
theorem exec_changes_destination (i : Instr) (s t : State) (r : Fin 32) (h : exec i s = .next t)
    (hr : t.x[r] ≠ s.x[r]) : s.priv = .m ∧ r.val ≠ 0 ∧ destination i = r.val := by
  rcases exec_next i s t h with ⟨hpriv, len, u, -, hu, rfl⟩ | ⟨-, rfl⟩
  · have hux : u.x = s.x := by
      rcases hu with rfl | ⟨v, rfl⟩
      · rfl
      · rfl
    have hdest : ¬ (r.val ≠ destination i ∨ destination i = 0) := fun hother =>
      hr (by rw [complete_x, writeReg_x_other _ _ _ _ r hother, hux])
    obtain ⟨heq, hne⟩ := not_or.mp hdest
    have heq := not_not.mp heq
    exact ⟨hpriv, heq ▸ hne, heq.symm⟩
  · exact absurd rfl hr

/-- Settles O56, by the cases of `step_next`: only an instruction and a reset touch the registers, and the destination
of an instruction stands in bits 11:7 of its word. -/
theorem registersChangeOnlyAtTheDestination : Obligations.RegistersChangeOnlyAtTheDestination := by
  intro s t r h hr
  rcases step_next s t h with ⟨-, -, failedFetch⟩ | ⟨hnext, -, w, i, hword, hdecode, instruction⟩ | ⟨a, -, -, access⟩ |
    ⟨target, mode, -, trapEntry⟩ | ⟨target, mode, -, -, trapReturn⟩ | ⟨mxl, -, -, setMxl⟩ | ⟨d, hreset, -⟩
  · exact absurd (by rw [failedFetch]; rfl) hr
  · obtain ⟨hpriv, hne, hdest⟩ := exec_changes_destination i s.dropMove t r instruction hr
    obtain ⟨-, hrd, -⟩ := (decode_eq_instr_iff w i).mp hdecode
    exact .inr ⟨hnext, hpriv, hne, w, i, hword, hdecode, hrd.trans hdest⟩
  · exact absurd (by rw [performAccess_x a s.dropMove t access]; rfl) hr
  · exact absurd (by rw [trapEntry]; rfl) hr
  · exact absurd (by rw [trapReturn]; rfl) hr
  · exact absurd (by rw [setMxl]; rfl) hr
  · exact .inl (by simp [State.resetNext, hreset, Move.isReset])

theorem exec_keeps_agenda (i : Instr) (s t : State) (h : exec i s = .next t) : t.agenda = s.agenda := by
  rcases exec_next i s t h with ⟨-, len, u, -, hu, rfl⟩ | ⟨-, rfl⟩
  · rcases hu with rfl | ⟨v, rfl⟩
    · exact complete_agenda ..
    · exact complete_agenda ..
  · rfl

theorem performAccess_keeps_agenda (a : Access) (s t : State) (h : performAccess a s = .next t) :
    t.agenda = s.agenda := by
  rcases performAccess_next a s t h with ⟨-, rfl⟩ | ⟨-, rfl⟩
  · rfl
  · rfl

/-- A step takes the oldest move off the agenda and puts none on it (log 11). -/
theorem step_agenda (s t : State) (h : step s = .next t) : t.agenda = s.agenda.tail := by
  rcases step_next s t h with ⟨-, -, failedFetch⟩ | ⟨-, -, w, i, -, -, instruction⟩ | ⟨a, -, -, access⟩ |
    ⟨target, mode, -, trapEntry⟩ | ⟨target, mode, -, -, trapReturn⟩ | ⟨mxl, -, -, setMxl⟩ | ⟨d, -, reset⟩
  · rw [failedFetch]; rfl
  · exact exec_keeps_agenda i s.dropMove t instruction
  · exact performAccess_keeps_agenda a s.dropMove t access
  · rw [trapEntry]; rfl
  · rw [trapReturn]; rfl
  · rw [setMxl]; rfl
  · rw [reset]; rfl

/-- A run of `k + 1` steps of a machine is a step and a run of `k` steps. -/
theorem run_succ_next (M : Host.Core) (k : Nat) (s t : M.State) (h : M.run (k + 1) s = .next t) :
    ∃ u, M.step s = .next u ∧ M.run k u = .next t := by
  unfold Host.Core.run at h
  split at h
  · rename_i u hu
    exact ⟨u, hu, h⟩
  · cases h
  · cases h

/-- What every step of a machine keeps, every run keeps. -/
theorem run_keeps (M : Host.Core) {P : M.State → Prop} (hstep : ∀ s t, P s → M.step s = .next t → P t) (k : Nat)
    (s t : M.State) (hs : P s) (h : M.run k s = .next t) : P t := by
  induction k generalizing s with
  | zero =>
    cases h
    exact hs
  | succ k ih =>
    obtain ⟨u, hu, hrest⟩ := run_succ_next M k s t h
    exact ih u (hstep s u hs hu) hrest

/-- No reset is pending, and field `n` holds the value `v`. -/
def HoldsWithoutReset (n : Fin 8) (v : Byte) (s : State) : Prop :=
  (∀ m ∈ s.agenda, m.isReset = false) ∧ s.cfg[n] = v

theorem resetNext_of_no_reset (s : State) (h : ∀ m ∈ s.agenda, m.isReset = false) : s.resetNext = false := by
  unfold State.resetNext
  cases hagenda : s.agenda with
  | nil => rfl
  | cons m rest => exact h m (by simp [hagenda])

/-- With no reset pending, a step keeps a locked field, and no reset comes to be pending. -/
theorem step_keeps_holdsWithoutReset (n : Fin 8) (v : Byte) (hv : lockBit v = true) (s t : State)
    (hs : HoldsWithoutReset n v s) (h : step s = .next t) : HoldsWithoutReset n v t := by
  obtain ⟨hagenda, rfl⟩ := hs
  refine ⟨fun m hm => hagenda m ?_, ?_⟩
  · rw [step_agenda s t h] at hm
    exact List.mem_of_mem_tail hm
  · exact lockedFieldsChangeOnlyByReset s t n hv (resetNext_of_no_reset s hagenda) h

/-- Settles O51: no pending reset and the locked value of the field are kept by every step, so by every run. -/
theorem locksSurviveEveryRunWithoutReset : Obligations.LocksSurviveEveryRunWithoutReset := by
  intro k s t n hagenda hlocked h
  have hkept := step_keeps_holdsWithoutReset n s.cfg[n] hlocked
  obtain ⟨-, hfield⟩ := run_keeps Sys2Proof.core hkept k s t ⟨hagenda, rfl⟩ h
  exact hfield

end Sys2Proof.Machine
end

section
/-! Exceptions (60_exceptions.md): a step raises one for a failed fetch, a failed access, or an instruction outside
M-mode (R150, R154, R155), and the exception waits for its trap entry (R156, log 10), which like the return keeps the
fields (R157). -/

namespace Sys2Proof.Machine

/-- An instruction that leaves an exception where none stood ran outside M-mode; its own word is recorded, and nothing
else has changed (40_csr_access.md R116, log 9). -/
theorem exec_raises (i : Instr) (s t : State) (e : Exception) (h : exec i s = .next t) (hs : s.raised = none)
    (ht : t.raised = some e) :
    s.priv ≠ .m ∧ e = .illegalInstruction (encode i) ∧ t = s.setRaised (some e) := by
  rcases exec_next i s t h with ⟨-, len, u, -, hu, rfl⟩ | ⟨hpriv, rfl⟩
  · have hraised : u.raised = none := by
      rcases hu with rfl | ⟨v, rfl⟩
      · exact hs
      · exact hs
    rw [complete_raised, hraised] at ht
    cases ht
  · cases ht
    exact ⟨hpriv, rfl, rfl⟩

/-- An access that leaves an exception where none stood failed its check; the fault of its class is recorded, and
nothing else has changed (60_exceptions.md R151, R155). -/
theorem performAccess_raises (a : Access) (s t : State) (e : Exception) (h : performAccess a s = .next t)
    (hs : s.raised = none) (ht : t.raised = some e) :
    checkAccess s (accessClass a.kind) a.priv a.addr (accessSize a.kind) = .faults ∧
      e = .accessFault (accessClass a.kind) ∧ t = s.setRaised (some e) := by
  rcases performAccess_next a s t h with ⟨-, rfl⟩ | ⟨hcheck, rfl⟩
  · rw [State.setMem_raised, hs] at ht
    cases ht
  · cases ht
    exact ⟨hcheck, rfl, rfl⟩

/-- Settles O57, by the cases of `step_next`: the two moves that check an access and the instruction can raise; a trap
entry and a reset leave no exception, and a trap return and a change of MXL need that none stands raised. -/
theorem exceptionsAriseOnlyAsListed : Obligations.ExceptionsAriseOnlyAsListed := by
  intro s t e h ht
  rcases step_next s t h with ⟨hnext, hcheck, rfl⟩ | ⟨hnext, hcheck, w, i, hword, hdecode, instruction⟩ |
    ⟨a, hhead, hraised, access⟩ | ⟨target, mode, -, rfl⟩ | ⟨target, mode, -, hraised, rfl⟩ |
    ⟨mxl, -, hraised, rfl⟩ | ⟨d, -, rfl⟩
  · cases ht
    exact ⟨rfl, instructionNext_raised s hnext, .inl ⟨hnext, rfl, hcheck⟩⟩
  · have hraised := instructionNext_raised s hnext
    obtain ⟨hpriv, he, raised⟩ := exec_raises i s.dropMove t e instruction hraised ht
    obtain ⟨-, hencode⟩ := encodeDecodeIsIdentity w i hdecode
    rw [hencode] at he
    exact ⟨raised, hraised, .inr (.inl ⟨hnext, hpriv, hcheck, w, i, hword, hdecode, he⟩)⟩
  · obtain ⟨hcheck, he, raised⟩ := performAccess_raises a s.dropMove t e access hraised ht
    exact ⟨raised, hraised, .inr (.inr ⟨a, hhead, he, hcheck⟩)⟩
  · cases ht
  · cases hraised.symm.trans ht
  · cases hraised.symm.trans ht
  · cases ht

/-- While an exception stands raised, a move that is neither a trap entry nor a reset stops. -/
theorem perform_of_raised (m : Move) (s : State) (e : Exception) (hs : s.raised = some e) (hreset : m.isReset = false)
    (hentry : ∀ target mode, m ≠ .trapEntry target mode) : perform m s = .fault (.undelivered e) := by
  cases m with
  | instruction | access a | trapReturn target mode | setMxl mxl => exact whenDelivered_some s _ e hs
  | trapEntry target mode => exact absurd rfl (hentry target mode)
  | reset d => cases hreset

/-- Settles O43: the move is the oldest pending one or, with none pending, an instruction. -/
theorem aRaisedExceptionWaitsForItsTrapEntry : Obligations.ARaisedExceptionWaitsForItsTrapEntry := by
  intro s e hraised hreset hentry
  cases hagenda : s.agenda with
  | nil =>
    rw [step_of_empty s hagenda]
    exact perform_of_raised .instruction s e hraised rfl fun _ _ h => nomatch h
  | cons m rest =>
    have hmove : m.isReset = false := by simpa [State.resetNext, hagenda] using hreset
    have hnotEntry : ∀ target mode, m ≠ .trapEntry target mode := by simpa [hagenda] using hentry
    rw [step_of_move s m rest hagenda]
    exact perform_of_raised m (s.setAgenda rest) e hraised hmove hnotEntry

theorem runInstruction_of_failed_fetch (s : State) (hc : checkAccess s .fetch s.priv s.insnAddr 4 = .faults) :
    runInstruction s = .next (s.setRaised (some (.accessFault .fetch))) := by
  simp only [runInstruction, hc, raiseException]

/-- Settles O30: the check of the fetch is made in the state without the finished move, on which it does not depend. -/
theorem aFailedFetchRaisesAccessFault : Obligations.AFailedFetchRaisesAccessFault := by
  intro s hnext hc
  rw [step_of_instructionNext s hnext]
  exact runInstruction_of_failed_fetch s.dropMove hc

theorem performAccess_of_failed_check (a : Access) (s : State)
    (hc : checkAccess s (accessClass a.kind) a.priv a.addr (accessSize a.kind) = .faults) :
    performAccess a s = .next (s.setRaised (some (.accessFault (accessClass a.kind)))) := by
  simp only [performAccess, hc, raiseException]

/-- Settles O40: no exception stands raised, so the access is tried, and its check fails. -/
theorem aFailedAccessIsNotPerformed : Obligations.AFailedAccessIsNotPerformed := by
  intro s a rest hagenda hraised hc
  rw [step_of_move s _ rest hagenda, perform, whenDelivered_none (s.setAgenda rest) _ hraised]
  exact performAccess_of_failed_check a (s.setAgenda rest) hc

/-- A trap entry needs no raised exception and takes one that stands (60_exceptions.md R156). -/
theorem step_trapEntry (s : State) (target : Nat) (mode : Priv) (rest : List Move)
    (ha : s.agenda = .trapEntry target mode :: rest) : step s = .next (enterTrap target mode (s.setAgenda rest)) := by
  rw [step_of_move s _ rest ha, perform]

theorem step_trapReturn (s : State) (target : Nat) (mode : Priv) (rest : List Move)
    (ha : s.agenda = .trapReturn target mode :: rest) (hr : s.raised = none) :
    step s = .next (returnFromTrap target mode (s.setAgenda rest)) := by
  rw [step_of_move s _ rest ha]
  exact whenDelivered_none _ _ hr

/-- Settles O42, by the two moves. -/
theorem trapEntryAndReturnKeepTheFields : Obligations.TrapEntryAndReturnKeepTheFields := by
  intro s target mode rest
  constructor
  · intro hagenda
    exact ⟨_, step_trapEntry s target mode rest hagenda, rfl, rfl, rfl, rfl, rfl, rfl, rfl, rfl, rfl⟩
  · intro hagenda hraised
    exact ⟨_, step_trapReturn s target mode rest hagenda hraised, rfl, hraised, rfl, rfl, rfl, rfl, rfl, rfl, rfl⟩

end Sys2Proof.Machine
end

section
/-! What changes the fields (70_reset_and_hazards.md R176), and a written value read back (R173). -/

namespace Sys2Proof.Machine

/-- An instruction outside M-mode only raises, so it keeps the fields (40_csr_access.md R116). -/
theorem exec_changes_fields_in_mMode (i : Instr) (s t : State) (h : exec i s = .next t) (hcfg : t.cfg ≠ s.cfg) :
    s.priv = .m := by
  rcases exec_next i s t h with ⟨hpriv, -⟩ | ⟨-, rfl⟩
  · exact hpriv
  · exact absurd rfl hcfg

/-- Settles O52, by the cases of `step_next`: a failed fetch, an access, a trap entry or return and a change of MXL
keep the fields, which leaves the reset and the instruction. -/
theorem fieldsChangeOnlyByMModeInstructionOrReset : Obligations.FieldsChangeOnlyByMModeInstructionOrReset := by
  intro s t h hcfg
  rcases step_next s t h with ⟨-, -, rfl⟩ | ⟨hnext, hcheck, w, i, hword, hdecode, instruction⟩ | ⟨a, -, -, access⟩ |
    ⟨target, mode, -, rfl⟩ | ⟨target, mode, -, -, rfl⟩ | ⟨mxl, -, -, rfl⟩ | ⟨d, hreset, -⟩
  · exact absurd rfl hcfg
  · have hpriv := exec_changes_fields_in_mMode i s.dropMove t instruction hcfg
    exact .inr ⟨hnext, hpriv, hcheck, w, i, hword, hdecode, instruction⟩
  · exact absurd (performAccess_cfg a s.dropMove t access) hcfg
  · exact absurd rfl hcfg
  · exact absurd rfl hcfg
  · exact absurd rfl hcfg
  · exact .inl (by simp [State.resetNext, hreset, Move.isReset])

/-- Of two legal values, a field that holds one and is written the other stores the written one unless it is locked:
both have bits 6:5 at 0, so the accepted value is the attempted one. -/
theorem writeField_of_legal (g : Int) (old new : Byte) (hold : legal g old = true) (hnew : legal g new = true) :
    writeField g old new = if lockBit old then old else new := by
  cases hlock : lockBit old with
  | true => exact writeField_locked g old new hlock
  | false =>
    obtain ⟨-, -, hzero⟩ := (legal_iff g old).mp hold
    obtain ⟨hperms, hmode, hzero'⟩ := (legal_iff g new).mp hnew
    rw [writeField_accepted g old new hlock hperms hmode]
    exact acceptedValue_of_reservedBits old new (hzero'.trans hzero.symm)

/-- Settles O28: the byte read is the field after the write, and the invariant makes the field's old value legal. -/
theorem aWrittenValueReadsBackUnlessLocked : Obligations.AWrittenValueReadsBackUnlessLocked := by
  intro rd rs1 s t len n hpriv hformat hinv hin himp hlegal hexec
  obtain ⟨u, hnext, hfields, -⟩ := csrAccess_write hpriv hformat (.csrrw rd rs1) rd fun len => readReg len rs1 s
  obtain rfl : t = u := Host.Outcome.next.inj (hexec.symm.trans hnext)
  obtain ⟨hold, -⟩ := hinv n
  rw [readCsr_byte len t n hin, hfields n, if_pos ⟨hin, himp⟩]
  exact writeField_of_legal _ _ _ (hold himp) hlegal

end Sys2Proof.Machine
end

section
/-! A stored value without a meaning (93 U3, U4): an entry that stores one and covers the access stops its check (log 22). -/

namespace Sys2Proof.Machine

theorem meaningless_iff (p : Params) (n : Nat) (v : Byte) (addr : Addr) (nbytes : Nat) :
    meaningless p n v addr nbytes = true ↔
      Covers p n v addr nbytes ∧ (reservedPerms v = true ∨ invalidMode p.pmpGranularity v = true) := by
  simp only [meaningless, Covers, Bool.and_eq_true, Bool.or_eq_true, decide_eq_true_iff, bne_iff_ne]
  tauto

theorem addrMode_ne_off (v : Byte) (h : v.extractLsb' 3 2 ≠ 0) : addrMode v ≠ .off := by
  rw [addrMode_eq, if_neg h]
  split
  · decide
  · split <;> decide

/-- One meaningless entry is enough, whatever the class and the mode of the access are; the entry named is the first
such one, so it may be another. -/
theorem checkAccess_of_meaningless (s : State) (n : Fin 8) (c : AccessClass) (priv : Priv) (addr : Addr) (nbytes : Nat)
    (h : meaningless s.params n s.cfg[n] addr nbytes = true) :
    ∃ k, checkAccess s c priv addr nbytes = .noMeaning k := by
  have hfound : ((List.finRange 8).find? fun m : Fin 8 => meaningless s.params m s.cfg[m] addr nbytes).isSome :=
    List.find?_isSome.mpr ⟨n, List.mem_finRange n, h⟩
  obtain ⟨k, hk⟩ := Option.isSome_iff_exists.mp hfound
  exact ⟨k, by rw [checkAccess, hk]⟩

theorem runInstruction_of_noMeaning (s : State) (k : Fin 8)
    (hc : checkAccess s .fetch s.priv s.insnAddr 4 = .noMeaning k) :
    runInstruction s = .refused (.reservedConfig k) := by
  simp only [runInstruction, hc]

theorem performAccess_of_noMeaning (a : Access) (s : State) (k : Fin 8)
    (hc : checkAccess s (accessClass a.kind) a.priv a.addr (accessSize a.kind) = .noMeaning k) :
    performAccess a s = .refused (.reservedConfig k) := by
  simp only [performAccess, hc]

/-- Settles O39: where the entry covers the access its value is meaningless, so the check of the fetch, and of the
access, answers no meaning, and the step refuses. -/
theorem aMeaninglessEntryIsRefused : Obligations.AMeaninglessEntryIsRefused := by
  intro s n himp hmode hvalue
  have meaningless_of_match (addr : Addr) (nbytes : Nat)
      (hmatch : pmpMatch s.params n (addrMode s.cfg[n]) addr nbytes = true) :
      meaningless s.params n s.cfg[n] addr nbytes = true := by
    rw [meaningless_iff, reservedPerms_iff, invalidMode_iff]
    exact ⟨⟨himp, addrMode_ne_off _ hmode, hmatch⟩, hvalue⟩
  constructor
  · intro hnext hmatch
    obtain ⟨k, hc⟩ := checkAccess_of_meaningless s n .fetch s.priv _ _ (meaningless_of_match _ _ hmatch)
    refine ⟨k, ?_⟩
    rw [step_of_instructionNext s hnext]
    exact runInstruction_of_noMeaning s.dropMove k hc
  · intro a rest hagenda hraised hmatch
    obtain ⟨k, hc⟩ :=
      checkAccess_of_meaningless s n (accessClass a.kind) a.priv _ _ (meaningless_of_match _ _ hmatch)
    refine ⟨k, ?_⟩
    rw [step_of_move s _ rest hagenda, perform, whenDelivered_none (s.setAgenda rest) _ hraised]
    exact performAccess_of_noMeaning a (s.setAgenda rest) k hc

end Sys2Proof.Machine
end

section
/-! The decoding vectors of 95_test_vectors.md 2.5: each of K1 to K10 is the word of the instruction the table lists. -/

namespace Sys2Proof

theorem decode_of_encode_eq (i : Instr) (w : Insn) (hwf : i.wf = true) (hw : encode i = w) : decode w = .instr i :=
  hw ▸ decodeEncodeIsIdentity i hwf

/-- Settles O4: K1 to K10 by encoding the listed instruction, K11 and K12 by running the decoder. -/
theorem specVectorsDecode : Obligations.SpecVectorsDecode :=
  ⟨decode_of_encode_eq _ _ rfl rfl, decode_of_encode_eq _ _ rfl rfl, decode_of_encode_eq _ _ rfl rfl,
    decode_of_encode_eq _ _ rfl rfl, decode_of_encode_eq _ _ rfl rfl, decode_of_encode_eq _ _ rfl rfl,
    decode_of_encode_eq _ _ rfl rfl, decode_of_encode_eq _ _ rfl rfl, decode_of_encode_eq _ _ rfl rfl,
    decode_of_encode_eq _ _ rfl rfl, by decide, by decide⟩

end Sys2Proof
end
